-- ==== Sys2Proof/Word.lean ====
section
/-! DEFINITION. The widths of the PXE pixel engine (00_scope.md R14): 32-bit words, bytes, 16-bit pixels. -/

namespace Sys2Proof

/-- A word: header, operand, response value or control register (R14, R69). -/
abbrev Word := BitVec 32

/-- The smallest addressable unit of a surface buffer (20_memory.md R50). -/
abbrev Byte := BitVec 8

/-- A packed 16-bit pixel value, 5 bits red, 6 green, 5 blue (00_scope.md R11). -/
abbrev Pixel := BitVec 16

end Sys2Proof
end

