-- ==== Sys2Proof/Syntax.lean ====
section
/-! DEFINITION. The 22 commands (30_encoding.md R88), one constructor per row of spec/opcode_table.json, and their operand
formats (R85). An operand is one whole word (R82), so an operand field is a `Word`; its reading (S32, U32, COLOR32, TFLAGS) is
in Machine/Operands.lean. -/

namespace Sys2Proof

/-- The operands of a packet whose command has a fixed LEN: the fields of its format when LEN is the one R88 gives the
command, else the words that came with the wrong LEN. R89 step 4 rejects those AFTER the tests of steps 1 to 3, and a
command of R88 is selected by its OPC alone, so such a packet is still that command's (log entry 10). -/
inductive Packed (α : Type) where
  | fields (ops : α)
  | otherLen (words : List Word)
  deriving DecidableEq, Repr

/-- Format `P`: x, y (R85). -/
structure PointOps where
  x : Word
  y : Word
  deriving DecidableEq, Repr

/-- Format `PC`: x, y, color (R85). -/
structure PixelOps where
  x : Word
  y : Word
  color : Word
  deriving DecidableEq, Repr

/-- Format `L` (R85), in the parameter order of `DrawLine`. -/
structure LineOps where
  color : Word
  thickness : Word
  x0 : Word
  y0 : Word
  x1 : Word
  y1 : Word
  deriving DecidableEq, Repr

/-- Format `R` (R85); `corner` and `gradient` are ignored by every rule. -/
structure RectOps where
  color : Word
  thickness : Word
  x : Word
  y : Word
  width : Word
  height : Word
  corner : Word
  gradient : Word
  opacity : Word
  deriving DecidableEq, Repr

/-- Format `B` (R85); `xDst` and `yDst` are ignored by every rule. -/
structure BlitOps where
  xDst : Word
  yDst : Word
  widthDst : Word
  heightDst : Word
  src : Word
  xSrc : Word
  ySrc : Word
  widthSrc : Word
  heightSrc : Word
  opacity : Word
  deriving DecidableEq, Repr

/-- Format `T` (R84, R85): six words, then one codepoint a word. -/
structure TextOps where
  tflags : Word
  family : Word
  size : Word
  color : Word
  x : Word
  y : Word
  text : List Word
  deriving DecidableEq, Repr

/-- The commands of R88. `surf` is the header's SURF field. Formats `C`, `H` and `G` are one word, format `N` none, format `V`
any number of words. -/
inductive Instr where
  | dtGetPixel (surf : Byte) (ops : Packed PointOps)
  | dtSetPixel (surf : Byte) (ops : Packed PixelOps)
  | dtClear (surf : Byte) (ops : Packed Word)
  | dtGetData (surf : Byte) (ops : Packed Unit)
  | dtFlush (surf : Byte) (ops : Packed Unit)
  | dtDispose (surf : Byte) (ops : Packed Unit)
  | dtWidth (surf : Byte) (ops : Packed Unit)
  | dtHeight (surf : Byte) (ops : Packed Unit)
  | rClear (surf : Byte) (ops : Packed Unit)
  | rGetPixel (surf : Byte) (ops : Packed PointOps)
  | rSetPixel (surf : Byte) (ops : Packed PixelOps)
  | rDrawLine (surf : Byte) (ops : Packed LineOps)
  | rDrawRect (surf : Byte) (ops : Packed RectOps)
  | rDrawEllipse (surf : Byte) (words : List Word)
  | rDrawText (surf : Byte) (ops : Packed TextOps)
  | rDrawTextInRect (surf : Byte) (words : List Word)
  | rStretchImage (surf : Byte) (ops : Packed BlitOps)
  | rGetBitmap (surf : Byte) (ops : Packed Unit)
  | rFlush (surf : Byte) (ops : Packed Word)
  | rWidth (surf : Byte) (ops : Packed Unit)
  | rHeight (surf : Byte) (ops : Packed Unit)
  | sysRdReg (surf : Byte) (ops : Packed Word)
  deriving DecidableEq, Repr

end Sys2Proof
end

