-- ==== Sys2Proof/WellFormed.lean ====
section
/-! DEFINITION. Which terms of `Instr` are packets: LEN is 16 bits (30_encoding.md R81), and operands kept as `otherLen` do not
have the LEN that R88 gives the command. Every packet of a command of R88 is exactly one well-formed term. What R89 rejects by
its content (SURF, TFLAGS, source) is a packet too, and is rejected by the command's meaning. -/

namespace Sys2Proof

/-- The largest LEN (R81: 16 bits). -/
def maxLen : Nat := 65535

/-- Operands of a command with exactly `n` operand words. -/
def Packed.wfExact {α : Type} (n : Nat) : Packed α → Bool
  | .fields _ => true
  | .otherLen ws => decide (ws.length ≠ n) && decide (ws.length ≤ maxLen)

/-- Operands of `R.DRAWTEXT`, whose LEN is 6 + n, n ≥ 0 (R84, R85). -/
def Packed.wfText : Packed TextOps → Bool
  | .fields o => decide (6 + o.text.length ≤ maxLen)
  | .otherLen ws => decide (ws.length < 6)

/-- The term is a packet of its command. -/
def Instr.wf : Instr → Bool
  | .dtGetPixel _ o => o.wfExact 2
  | .dtSetPixel _ o => o.wfExact 3
  | .dtClear _ o => o.wfExact 1
  | .dtGetData _ o => o.wfExact 0
  | .dtFlush _ o => o.wfExact 0
  | .dtDispose _ o => o.wfExact 0
  | .dtWidth _ o => o.wfExact 0
  | .dtHeight _ o => o.wfExact 0
  | .rClear _ o => o.wfExact 0
  | .rGetPixel _ o => o.wfExact 2
  | .rSetPixel _ o => o.wfExact 3
  | .rDrawLine _ o => o.wfExact 6
  | .rDrawRect _ o => o.wfExact 9
  | .rDrawEllipse _ ws => decide (ws.length ≤ maxLen)
  | .rDrawText _ o => o.wfText
  | .rDrawTextInRect _ ws => decide (ws.length ≤ maxLen)
  | .rStretchImage _ o => o.wfExact 10
  | .rGetBitmap _ o => o.wfExact 0
  | .rFlush _ o => o.wfExact 1
  | .rWidth _ o => o.wfExact 0
  | .rHeight _ o => o.wfExact 0
  | .sysRdReg _ o => o.wfExact 1

/-- `Instr.wf` as a proposition. -/
abbrev Instr.WellFormed (i : Instr) : Prop := i.wf = true

end Sys2Proof
end

