-- ==== Sys2Proof/Decode.lean ====
section
/-! DEFINITION. Packets from words (30_encoding.md R80, R81), the decoder (R88, R89, R90) and the encoder. Words are exchanged
whole, so no byte order arises (20_memory.md R69). -/

namespace Sys2Proof

/-- A header word from its three fields (R81): LEN in 31:16, SURF in 15:8, OPC in 7:0. -/
def headerWord (opc surf : Byte) (len : Nat) : Word := BitVec.ofNat 16 len ++ surf ++ opc

/-- `header[7:0]` (R81). -/
def headerOpc (h : Word) : Byte := h.extractLsb' 0 8

/-- `header[15:8]` (R81). -/
def headerSurf (h : Word) : Byte := h.extractLsb' 8 8

/-- `header[31:16]` (R81), a number of words. -/
def headerLen (h : Word) : Nat := (h.extractLsb' 16 16).toNat

/-- A header word and the operand words that follow it (R80). -/
structure Packet where
  header : Word
  ops    : List Word
  deriving DecidableEq, Repr

/-- The first packet of a list of words and what follows it, or nothing while words are missing (R80). -/
def splitPacket : List Word → Option (Packet × List Word)
  | [] => none
  | h :: rest =>
    if rest.length < headerLen h then none
    else some (⟨h, rest.take (headerLen h)⟩, rest.drop (headerLen h))

/-- Why a list of words is no command. -/
inductive DecodeError where
  /-- Words are missing: not a packet yet (R80). -/
  | incomplete
  /-- The OPC value is none of the 22 (R90, R89 step 3). -/
  | reservedOpcode (opc : Byte)
  deriving DecidableEq, Repr

/-! Opcode numbers (R88). -/

def opcDtGetPixel : Byte := 0x01
def opcDtSetPixel : Byte := 0x02
def opcDtClear : Byte := 0x03
def opcDtGetData : Byte := 0x04
def opcDtFlush : Byte := 0x05
def opcDtDispose : Byte := 0x06
def opcDtWidth : Byte := 0x07
def opcDtHeight : Byte := 0x08
def opcRClear : Byte := 0x10
def opcRGetPixel : Byte := 0x11
def opcRSetPixel : Byte := 0x12
def opcRDrawLine : Byte := 0x13
def opcRDrawRect : Byte := 0x14
def opcRDrawEllipse : Byte := 0x15
def opcRDrawText : Byte := 0x16
def opcRDrawTextInRect : Byte := 0x17
def opcRStretchImage : Byte := 0x18
def opcRGetBitmap : Byte := 0x19
def opcRFlush : Byte := 0x1A
def opcRWidth : Byte := 0x1B
def opcRHeight : Byte := 0x1C
def opcSysRdReg : Byte := 0x20

/-! Operand words by format (R85): the fields when the number of words is the format's, else the words as they came. -/

def unpackN : List Word → Packed Unit
  | [] => .fields ()
  | ws => .otherLen ws

/-- Formats `C`, `H`, `G`: one word. -/
def unpackOne : List Word → Packed Word
  | [w] => .fields w
  | ws => .otherLen ws

def unpackP : List Word → Packed PointOps
  | [x, y] => .fields ⟨x, y⟩
  | ws => .otherLen ws

def unpackPC : List Word → Packed PixelOps
  | [x, y, color] => .fields ⟨x, y, color⟩
  | ws => .otherLen ws

def unpackL : List Word → Packed LineOps
  | [color, thickness, x0, y0, x1, y1] => .fields ⟨color, thickness, x0, y0, x1, y1⟩
  | ws => .otherLen ws

def unpackR : List Word → Packed RectOps
  | [color, thickness, x, y, width, height, corner, gradient, opacity] =>
    .fields ⟨color, thickness, x, y, width, height, corner, gradient, opacity⟩
  | ws => .otherLen ws

def unpackB : List Word → Packed BlitOps
  | [xDst, yDst, widthDst, heightDst, src, xSrc, ySrc, widthSrc, heightSrc, opacity] =>
    .fields ⟨xDst, yDst, widthDst, heightDst, src, xSrc, ySrc, widthSrc, heightSrc, opacity⟩
  | ws => .otherLen ws

def unpackT : List Word → Packed TextOps
  | tflags :: family :: size :: color :: x :: y :: text =>
    .fields ⟨tflags, family, size, color, x, y, text⟩
  | ws => .otherLen ws

/-- The command of a packet, selected by OPC alone (R88), or the reserved opcode (R90). -/
def decodePacket (p : Packet) : Except DecodeError Instr :=
  let t := headerSurf p.header
  match headerOpc p.header with
  | 0x01#8 => .ok (.dtGetPixel t (unpackP p.ops))
  | 0x02#8 => .ok (.dtSetPixel t (unpackPC p.ops))
  | 0x03#8 => .ok (.dtClear t (unpackOne p.ops))
  | 0x04#8 => .ok (.dtGetData t (unpackN p.ops))
  | 0x05#8 => .ok (.dtFlush t (unpackN p.ops))
  | 0x06#8 => .ok (.dtDispose t (unpackN p.ops))
  | 0x07#8 => .ok (.dtWidth t (unpackN p.ops))
  | 0x08#8 => .ok (.dtHeight t (unpackN p.ops))
  | 0x10#8 => .ok (.rClear t (unpackN p.ops))
  | 0x11#8 => .ok (.rGetPixel t (unpackP p.ops))
  | 0x12#8 => .ok (.rSetPixel t (unpackPC p.ops))
  | 0x13#8 => .ok (.rDrawLine t (unpackL p.ops))
  | 0x14#8 => .ok (.rDrawRect t (unpackR p.ops))
  | 0x15#8 => .ok (.rDrawEllipse t p.ops)
  | 0x16#8 => .ok (.rDrawText t (unpackT p.ops))
  | 0x17#8 => .ok (.rDrawTextInRect t p.ops)
  | 0x18#8 => .ok (.rStretchImage t (unpackB p.ops))
  | 0x19#8 => .ok (.rGetBitmap t (unpackN p.ops))
  | 0x1A#8 => .ok (.rFlush t (unpackOne p.ops))
  | 0x1B#8 => .ok (.rWidth t (unpackN p.ops))
  | 0x1C#8 => .ok (.rHeight t (unpackN p.ops))
  | 0x20#8 => .ok (.sysRdReg t (unpackOne p.ops))
  | opc => .error (.reservedOpcode opc)

/-- The first command of a list of words and the words after it; total on every list (R91). -/
def decode (ws : List Word) : Except DecodeError (Instr × List Word) :=
  match splitPacket ws with
  | none => .error .incomplete
  | some (p, rest) =>
    match decodePacket p with
    | .ok i => .ok (i, rest)
    | .error e => .error e

/-- The operand words of a packet in a format whose fields are written out by `f`. -/
def Packed.words {α : Type} (f : α → List Word) : Packed α → List Word
  | .fields o => f o
  | .otherLen ws => ws

def PointOps.words (o : PointOps) : List Word := [o.x, o.y]
def PixelOps.words (o : PixelOps) : List Word := [o.x, o.y, o.color]
def LineOps.words (o : LineOps) : List Word := [o.color, o.thickness, o.x0, o.y0, o.x1, o.y1]
def RectOps.words (o : RectOps) : List Word :=
  [o.color, o.thickness, o.x, o.y, o.width, o.height, o.corner, o.gradient, o.opacity]
def BlitOps.words (o : BlitOps) : List Word :=
  [o.xDst, o.yDst, o.widthDst, o.heightDst, o.src, o.xSrc, o.ySrc, o.widthSrc, o.heightSrc, o.opacity]
def TextOps.words (o : TextOps) : List Word :=
  o.tflags :: o.family :: o.size :: o.color :: o.x :: o.y :: o.text

/-- The opcode number of a command (R88). -/
def Instr.opc : Instr → Byte
  | .dtGetPixel _ _ => opcDtGetPixel
  | .dtSetPixel _ _ => opcDtSetPixel
  | .dtClear _ _ => opcDtClear
  | .dtGetData _ _ => opcDtGetData
  | .dtFlush _ _ => opcDtFlush
  | .dtDispose _ _ => opcDtDispose
  | .dtWidth _ _ => opcDtWidth
  | .dtHeight _ _ => opcDtHeight
  | .rClear _ _ => opcRClear
  | .rGetPixel _ _ => opcRGetPixel
  | .rSetPixel _ _ => opcRSetPixel
  | .rDrawLine _ _ => opcRDrawLine
  | .rDrawRect _ _ => opcRDrawRect
  | .rDrawEllipse _ _ => opcRDrawEllipse
  | .rDrawText _ _ => opcRDrawText
  | .rDrawTextInRect _ _ => opcRDrawTextInRect
  | .rStretchImage _ _ => opcRStretchImage
  | .rGetBitmap _ _ => opcRGetBitmap
  | .rFlush _ _ => opcRFlush
  | .rWidth _ _ => opcRWidth
  | .rHeight _ _ => opcRHeight
  | .sysRdReg _ _ => opcSysRdReg

/-- The header's SURF field. -/
def Instr.surf : Instr → Byte
  | .dtGetPixel t _ | .dtSetPixel t _ | .dtClear t _ | .dtGetData t _ | .dtFlush t _ | .dtDispose t _
  | .dtWidth t _ | .dtHeight t _ | .rClear t _ | .rGetPixel t _ | .rSetPixel t _ | .rDrawLine t _
  | .rDrawRect t _ | .rDrawEllipse t _ | .rDrawText t _ | .rDrawTextInRect t _ | .rStretchImage t _
  | .rGetBitmap t _ | .rFlush t _ | .rWidth t _ | .rHeight t _ | .sysRdReg t _ => t

/-- The operand words in packet order (R82, R85). -/
def Instr.operandWords : Instr → List Word
  | .dtGetPixel _ o => o.words PointOps.words
  | .dtSetPixel _ o => o.words PixelOps.words
  | .dtClear _ o => o.words (fun w => [w])
  | .dtGetData _ o => o.words (fun _ => [])
  | .dtFlush _ o => o.words (fun _ => [])
  | .dtDispose _ o => o.words (fun _ => [])
  | .dtWidth _ o => o.words (fun _ => [])
  | .dtHeight _ o => o.words (fun _ => [])
  | .rClear _ o => o.words (fun _ => [])
  | .rGetPixel _ o => o.words PointOps.words
  | .rSetPixel _ o => o.words PixelOps.words
  | .rDrawLine _ o => o.words LineOps.words
  | .rDrawRect _ o => o.words RectOps.words
  | .rDrawEllipse _ ws => ws
  | .rDrawText _ o => o.words TextOps.words
  | .rDrawTextInRect _ ws => ws
  | .rStretchImage _ o => o.words BlitOps.words
  | .rGetBitmap _ o => o.words (fun _ => [])
  | .rFlush _ o => o.words (fun w => [w])
  | .rWidth _ o => o.words (fun _ => [])
  | .rHeight _ o => o.words (fun _ => [])
  | .sysRdReg _ o => o.words (fun w => [w])

/-- The header word of a command's packet (R81). -/
def Instr.header (i : Instr) : Word := headerWord i.opc i.surf i.operandWords.length

/-- The words of a command: header, then operands (R80). -/
def encode (i : Instr) : List Word := i.header :: i.operandWords

/-- The words of an instruction whose bits are `w`, numbered as spec/opcode_table.json numbers them: the header is bits 31:0,
the next word bits 63:32, and every bit from `nbits` on is 0. As many operand words as the header's LEN announces. -/
def tableWords (nbits w : Nat) : List Word :=
  let bits := w % 2 ^ nbits
  let h : Word := BitVec.ofNat 32 bits
  h :: (List.range (headerLen h)).map (fun k => BitVec.ofNat 32 (bits >>> (32 * (k + 1))))

/-- The instruction this decoder reads from a table row's bits; none where the opcode is reserved. -/
def decodeTableWord (nbits w : Nat) : Option Instr :=
  match decode (tableWords nbits w) with
  | .ok (i, _) => some i
  | .error _ => none

end Sys2Proof
end

