-- ==== Sys2Proof/Config.lean ====
section
/-! DEFINITION. The implementation parameters of 00_scope.md R10. "A model takes these as arguments (configuration), not as
state": they are one record, which State carries unchanged, so a statement about every state is a statement about every
configuration. -/

namespace Sys2Proof

/-- One surface as it is configured: its declared size and the bytes its buffer holds after reset (R10, `INIT_BUF[s]`). -/
structure SurfaceConfig where
  width  : Nat
  height : Nat
  init   : List Byte
  deriving DecidableEq, Repr

/-- The parameters of R10. `glyphs` is the glyph ROM, 95 entries of 5 bytes (10_state.md R30); `fullOpacity` is the parameter
`OPAQUE`; `alphaOut` is `ARGB_ALPHA_OUT`. NSURF is the number of surfaces listed. -/
structure Config where
  surfaces    : List SurfaceConfig
  glyphs      : List (List Byte)
  fullOpacity : Word
  alphaOut    : Byte
  deriving DecidableEq, Repr

/-- The number of surfaces, the parameter NSURF (R10). -/
def Config.nsurf (c : Config) : Nat := c.surfaces.length

/-- The configuration of surface `t`. A surface that does not exist has size 0, so no pixel of it is in range (log entry 15). -/
def Config.surface (c : Config) (t : Nat) : SurfaceConfig := c.surfaces.getD t ⟨0, 0, []⟩

/-- W[t] (R10). -/
def Config.width (c : Config) (t : Nat) : Nat := (c.surface t).width

/-- H[t] (R10). -/
def Config.height (c : Config) (t : Nat) : Nat := (c.surface t).height

/-- The length of `BUF[t]` in bytes, W·H·2 (10_state.md R26). -/
def Config.bufLen (c : Config) (t : Nat) : Nat := c.width t * c.height t * 2

/-- R10's constraint on one surface: 1 ≤ W, 1 ≤ H, W·H·2 ≤ 2^31 − 1, and `INIT_BUF[s]` has the buffer's length. -/
def SurfaceConfig.wf (d : SurfaceConfig) : Bool :=
  decide (1 ≤ d.width) && decide (1 ≤ d.height) && decide (d.width * d.height * 2 ≤ 2 ^ 31 - 1)
    && decide (d.init.length = d.width * d.height * 2)

/-- The constraints of R10's table: 1 ≤ NSURF ≤ 256, every surface's own, 95 glyphs of 5 bytes with
`GLYPH[33] = {0x7E,0x11,0x11,0x11,0x7E}`, and `OPAQUE ≠ 0x80`. -/
def Config.wf (c : Config) : Bool :=
  decide (1 ≤ c.nsurf) && decide (c.nsurf ≤ 256) && c.surfaces.all SurfaceConfig.wf
    && decide (c.glyphs.length = 95) && c.glyphs.all (fun g => decide (g.length = 5))
    && decide (c.glyphs.getD 33 [] = [0x7E, 0x11, 0x11, 0x11, 0x7E])
    && decide (c.fullOpacity ≠ 0x80)

/-- The glyph ROM that holds the one entry the spec gives, entry 33, and blank glyphs elsewhere.
DESIGN CHOICE, unsafe: 44_text.md R207 leaves the other 94 entries open (log entry 4). -/
def Config.glyphsOfA : List (List Byte) :=
  (List.replicate 95 (List.replicate 5 0)).set 33 [0x7E, 0x11, 0x11, 0x11, 0x7E]

/-- A surface of the given size whose buffer holds 0x5A in every byte after reset, as the vectors of 95_test_vectors.md
section 2.3 have it. DESIGN CHOICE, unsafe: 70_reset_and_hazards.md R301 leaves the bytes open (log entry 5). -/
def SurfaceConfig.filled (w h : Nat) : SurfaceConfig := ⟨w, h, List.replicate (w * h * 2) 0x5A⟩

/-- The configuration of `State.reset`: the test configuration TC of 95_test_vectors.md with the surfaces of its section 2.3
(s0 is 8×6, s1 is 4×2). DESIGN CHOICE, unsafe where a statement leans on it; only the last clause of
InvariantAtReset does (log entries 1 to 5). -/
def Config.tc : Config :=
  { surfaces := [SurfaceConfig.filled 8 6, SurfaceConfig.filled 4 2]
    glyphs := Config.glyphsOfA
    fullOpacity := 0xFF
    alphaOut := 0xFF }

end Sys2Proof
end

