-- ==== Sys2Proof/Machine/State.lean ====
section
/-! DEFINITION. The state of PXE (10_state.md R29), its configuration (00_scope.md R10) and the two sides of the command port
(R13's packet and response), as plain data; the state after reset. -/

namespace Sys2Proof.Machine

/-- One surface buffer as a list of (byte offset, byte) pairs in one canonical form: offsets strictly rising, and no entry
equal to what an unlisted offset reads as, which is that offset's byte of `INIT_BUF` (10_state.md R26, R29). -/
abbrev Memory := List Host.Cell

/-- What an offset that the list does not mention reads as: its byte of `INIT_BUF[s]` (70_reset_and_hazards.md R301). -/
def Memory.unlisted (init : List Byte) (off : Nat) : Byte := init.getD off 0

/-- Offsets strictly rising. -/
def Memory.rising (m : Memory) : Bool := decide (m.Pairwise (fun c d => c.1 < d.1))

/-- The canonical form of a buffer of `len` bytes: rising offsets, all inside the buffer, no entry equal to the unlisted byte. -/
def Memory.wf (init : List Byte) (len : Nat) (m : Memory) : Bool :=
  Memory.rising m && m.all (fun c => decide (c.1 < len) && decide (c.2 ≠ Memory.unlisted init c.1))

/-- An event on the flush output (10_state.md R27). -/
inductive Event where
  | dtFlush (surf : Byte)
  | rFlush (surf : Byte) (handle : Word)
  deriving DecidableEq, Repr

/-- A response (30_encoding.md R86): CODE 8 bits, VALUE 32 bits. -/
structure Response where
  code  : Byte
  value : Word
  deriving DecidableEq, Repr

/-- Why a step stops with a fault. No constructor: "it has no halt, and after a fault it still answers every packet"
(00_scope.md R13), and PXE's own faults are next states with `FAULT` = 1 (60_exceptions.md R269). Safe: nothing is hidden by
a stop (log entry 11). -/
inductive Fault where
  deriving DecidableEq, Repr

/-- Why a step has no meaning. -/
inductive Refusal where
  /-- Raised by an arm of `exec` whose command has no meaning yet; no arm is in that case. Safe: it proves nothing. -/
  | notModelled (mnemonic : String)
  deriving DecidableEq, Repr

/-- The state. `cfg` is R10's configuration, which no step changes (log entry 1). `bufs`, `status` (cr[0]), `finfo0` (cr[1]),
`finfo1` (cr[2]), `fcmd` (cr[3]) and `out` are R29's table; cr[4] is the constant NSURF (R23). `port` holds the words
presented and not yet consumed (log entry 6), `resp` the responses given, oldest first (log entry 7). -/
structure State where
  cfg    : Config
  bufs   : List Memory
  status : Word
  finfo0 : Word
  finfo1 : Word
  fcmd   : Word
  out    : List Event
  port   : List Word
  resp   : List Response
  deriving DecidableEq, Repr

/-- The state after reset of a PXE with configuration `c` (10_state.md R29, 70_reset_and_hazards.md R300): the control registers
0, `OUT` empty, every buffer holding `INIT_BUF`, no packet half received (R302) and no response given. -/
def State.resetWith (c : Config) : State :=
  { cfg := c
    bufs := List.replicate c.nsurf []
    status := 0
    finfo0 := 0
    finfo1 := 0
    fcmd := 0
    out := []
    port := []
    resp := [] }

/-- The state after reset, in the configuration `Config.tc` (log entry 1). -/
def State.reset : State := State.resetWith Config.tc

end Sys2Proof.Machine
end

