-- ==== Sys2Proof/Machine/Flags.lean ====
section
/-! DEFINITION. Status codes (60_exceptions.md R261) and the fields of control register STATUS (10_state.md R22, R23). -/

namespace Sys2Proof.Machine

/-- The eight status codes (R261). -/
inductive Code where
  | ok
  | unsupported
  | invalidArgument
  | notImplemented
  | illegalCommand
  | pixelRange
  | glyphRange
  | faulted
  deriving DecidableEq, Repr

/-- The CODE field's number (R261). -/
def Code.number : Code → Byte
  | .ok => 0
  | .unsupported => 1
  | .invalidArgument => 2
  | .notImplemented => 3
  | .illegalCommand => 4
  | .pixelRange => 5
  | .glyphRange => 6
  | .faulted => 7

/-- `cr[0].FAULT`, bit 0 of STATUS (R22, R23). -/
def State.isFaulted (s : State) : Bool := s.status.getLsbD 0

/-- `cr[0].FCODE`, bits 15:8 of STATUS (R23). -/
def State.fcode (s : State) : Byte := s.status.extractLsb' 8 8

/-- STATUS after a fault of code `fcode`: `zext_32(FCODE ++ 0b0000000 ++ 0b1)` (60_exceptions.md R269). -/
def faultStatus (fcode : Byte) : Word := (fcode ++ 0#7 ++ 1#1).setWidth 32

end Sys2Proof.Machine
end

