-- ==== Sys2Proof/Machine/Operands.lean ====
section
/-! DEFINITION. How an operand word is read (30_encoding.md R82, R83) and the colour conversions (20_memory.md R54, R55). -/

namespace Sys2Proof.Machine

/-- S32: two's complement (R14, R82). -/
def s32 (w : Word) : Int := w.toInt

/-- U32 (R14, R82). -/
def u32 (w : Word) : Nat := w.toNat

/-- The word congruent to `i` modulo 2^32 (R14). -/
def low32 (i : Int) : Word := BitVec.ofInt 32 i

/-- TCLR's Color: three 8-bit channels (00_scope.md R18). -/
structure Color where
  r : Byte
  g : Byte
  b : Byte
  deriving DecidableEq, Repr

/-- COLOR32: R in 23:16, G in 15:8, B in 7:0; bits 31:24 are ignored (R83). -/
def color32 (w : Word) : Color := ⟨w.extractLsb' 16 8, w.extractLsb' 8 8, w.extractLsb' 0 8⟩

/-- Solid black, tested on the 8-bit channels before any truncation (40_drawtarget.md R122). -/
def Color.isBlack (c : Color) : Bool := decide (c.r = 0) && decide (c.g = 0) && decide (c.b = 0)

/-- The 16-bit pixel value of a colour (R54). -/
def enc565 (c : Color) : Pixel :=
  (((c.r &&& 0xF8).setWidth 16) <<< 8) ||| (((c.g &&& 0xFC).setWidth 16) <<< 3) |||
    (((c.b &&& 0xF8).setWidth 16) >>> 3)

/-- The colour of a 16-bit pixel value (R55): the low bits of each channel are zero. -/
def dec565 (v : Pixel) : Color :=
  ⟨(v.extractLsb' 11 5).setWidth 8 <<< 3, (v.extractLsb' 5 6).setWidth 8 <<< 2,
    (v.extractLsb' 0 5).setWidth 8 <<< 3⟩

/-- A colour as `A ++ R ++ G ++ B` (40_drawtarget.md R120 with A = 0, 41_renderer_pixel.md R151). -/
def Color.packed (a : Byte) (c : Color) : Word := a ++ c.r ++ c.g ++ c.b

/-- TFLAGS bit 0, `TEXT_PRESENT` (R83). -/
def textPresent (tflags : Word) : Bool := tflags.getLsbD 0

/-- TFLAGS bit 1, `FONT_PRESENT` (R83). -/
def fontPresent (tflags : Word) : Bool := tflags.getLsbD 1

/-- TFLAGS bits 31:2, which must be zero (R83, R90). -/
def tflagsReserved (tflags : Word) : BitVec 30 := tflags.extractLsb' 2 30

/-- `scale = floor(size / 8)` (44_text.md R206); Lean's integer division by a positive number is floor. -/
def textScale (size : Word) : Int := s32 size / 8

end Sys2Proof.Machine
end

