-- ==== Sys2Proof/Machine/Ops.lean ====
section
/-! DEFINITION. The named operations every command is written from: buffers as memory, checked pixel access (20_memory.md R56 to
R58), the transfer port (R62), responses, fault entry (60_exceptions.md R269), the checks of decoding (30_encoding.md R89), the
command port (R80) and the reset input (70_reset_and_hazards.md R300). -/

namespace Sys2Proof.Machine

open Sys2Proof

/-- What a step answers. -/
abbrev Result := Host.Outcome State Fault Refusal

/-! ### Buffers -/

/-- The byte at offset `a`. -/
def Memory.read (init : List Byte) : Memory → Nat → Byte
  | [], a => Memory.unlisted init a
  | (k, b) :: rest, a => if k = a then b else Memory.read init rest a

/-- Put `b` at offset `a` in front of entries above it: nothing is listed where `b` is the unlisted byte. -/
def Memory.put (init : List Byte) (a : Nat) (b : Byte) (m : Memory) : Memory :=
  if b = Memory.unlisted init a then m else (a, b) :: m

/-- Write `b` at offset `a`, keeping the canonical form. -/
def Memory.write (init : List Byte) : Memory → Nat → Byte → Memory
  | [], a, b => Memory.put init a b []
  | (k, c) :: rest, a, b =>
    if a < k then Memory.put init a b ((k, c) :: rest)
    else if a = k then Memory.put init a b rest
    else (k, c) :: Memory.write init rest a b

/-- The list of a buffer whose every byte is 0, from offset `off` on: one entry where the unlisted byte is not 0. -/
def Memory.zeros : Nat → List Byte → Memory
  | _, [] => []
  | off, b :: rest => if b = 0 then Memory.zeros (off + 1) rest else (off, 0) :: Memory.zeros (off + 1) rest

/-- `BUF[t]` as its list. -/
def State.buf (s : State) (t : Nat) : Memory := s.bufs.getD t []

/-- `INIT_BUF[t]`. -/
def State.initBuf (s : State) (t : Nat) : List Byte := (s.cfg.surface t).init

/-- The state with `BUF[t]` replaced. -/
def State.setBuf (s : State) (t : Nat) (m : Memory) : State := { s with bufs := s.bufs.set t m }

/-- `MemRead((t, off), 1)` (00_scope.md R15). -/
def State.readByte (s : State) (t off : Nat) : Byte := Memory.read (s.initBuf t) (s.buf t) off

/-- `MemRead((t, off), 2)`: big-endian (R15, 20_memory.md R52). -/
def State.readPixel (s : State) (t off : Nat) : Pixel := s.readByte t off ++ s.readByte t (off + 1)

/-- `MemWrite((t, off), 1, b)` (R15). -/
def State.writeByte (s : State) (t off : Nat) (b : Byte) : State :=
  s.setBuf t (Memory.write (s.initBuf t) (s.buf t) off b)

/-- `MemWrite((t, off), 2, v)`: high byte first, then low byte (R15, 20_memory.md R53). -/
def State.writePixel (s : State) (t off : Nat) (v : Pixel) : State :=
  (s.writeByte t off (v.extractLsb' 8 8)).writeByte t (off + 1) (v.extractLsb' 0 8)

/-- `BulkClear(t)`: every byte of `BUF[t]` becomes 0 (20_memory.md R58). -/
def State.bulkClear (s : State) (t : Nat) : State :=
  s.setBuf t (Memory.zeros 0 ((s.initBuf t).take (s.cfg.bufLen t)))

/-- `XferRead(t, off)`: the transfer port's view of a buffer between commands (20_memory.md R62). Reads during a command have no
meaning here (DESIGN CHOICE, unsafe for a host that breaks 70_reset_and_hazards.md R310; log entry 8). -/
def xferRead (s : State) (t off : Nat) : Option Byte :=
  if t < s.cfg.nsurf ∧ off < s.cfg.bufLen t then some (s.readByte t off) else none

/-! ### Faults raised while drawing -/

/-- A fault and its information words (60_exceptions.md R266, R267). -/
inductive Raise where
  | pixelRange (x y : Int)
  | glyphRange (codepoint index : Nat)
  deriving DecidableEq, Repr

/-- The fault's code (R261). -/
def Raise.code : Raise → Code
  | .pixelRange _ _ => .pixelRange
  | .glyphRange _ _ => .glyphRange

/-- FINFO0: `low32(x)`, or the codepoint (R266, R267). -/
def Raise.info0 : Raise → Word
  | .pixelRange x _ => low32 x
  | .glyphRange p _ => BitVec.ofNat 32 p

/-- FINFO1: `low32(y)`, or the character's index (R266, R267). -/
def Raise.info1 : Raise → Word
  | .pixelRange _ y => low32 y
  | .glyphRange _ i => BitVec.ofNat 32 i

/-- How far a drawing procedure got: done, or stopped by a fault with the writes made so far kept (R269). -/
inductive Drawn where
  | done (s : State)
  | raised (f : Raise) (s : State)
  deriving DecidableEq, Repr

/-- The state a procedure leaves. -/
def Drawn.state : Drawn → State
  | .done s => s
  | .raised _ s => s

/-- Go on with `k` unless a fault was raised: "nothing after it in the pseudocode happens" (R15). -/
def Drawn.andThen (d : Drawn) (k : State → Drawn) : Drawn :=
  match d with
  | .done s => k s
  | .raised f s => .raised f s

/-- `for i in [i0, i0 + n)`, in that order (R15). -/
def loopFrom (body : Nat → State → Drawn) : Nat → Nat → State → Drawn
  | 0, _, s => .done s
  | n + 1, i, s => (body i s).andThen (loopFrom body n (i + 1))

/-- `for i in [0, n)` (R15). -/
def loop (n : Nat) (body : Nat → State → Drawn) (s : State) : Drawn := loopFrom body n 0 s

/-! ### Checked pixel access -/

/-- (x, y) is in range for surface `t` (00_scope.md R16). -/
def inRange (c : Config) (t : Nat) (x y : Int) : Bool :=
  decide (0 ≤ x) && decide (x < (c.width t : Int)) && decide (0 ≤ y) && decide (y < (c.height t : Int))

/-- The byte offset of pixel (x, y) in `BUF[t]`, `(y·W + x)·2` (20_memory.md R51). -/
def pixelOffset (c : Config) (t : Nat) (x y : Int) : Nat := ((y * (c.width t : Int) + x) * 2).toNat

/-- `PixRead(t, x, y)` (20_memory.md R56). -/
def pixRead (t : Nat) (x y : Int) (s : State) : Except Raise Pixel :=
  if inRange s.cfg t x y then .ok (s.readPixel t (pixelOffset s.cfg t x y))
  else .error (.pixelRange x y)

/-- `PixWrite(t, x, y, v)` (20_memory.md R57). -/
def pixWrite (t : Nat) (x y : Int) (v : Pixel) (s : State) : Drawn :=
  if inRange s.cfg t x y then .done (s.writePixel t (pixelOffset s.cfg t x y) v)
  else .raised (.pixelRange x y) s

/-! ### Responses, errors and fault entry -/

/-- Give a response (30_encoding.md R86). -/
def State.respond (s : State) (code : Code) (value : Word) : State :=
  { s with resp := s.resp ++ [⟨code.number, value⟩] }

/-- `return (OK, v)` (00_scope.md R15). -/
def returnOk (value : Word) (s : State) : Result := .next (s.respond .ok value)

/-- `raise E` for an error E: no state changes, VALUE is 0 (60_exceptions.md R271). -/
def raiseError (e : Code) (s : State) : Result := .next (s.respond e 0)

/-- Fault entry for a command with header word `h` (60_exceptions.md R269): the fault record is written and the response is
(FCODE, 0). There is no return from it but reset (R270). Callers build `h` from the decoded command (DEDUCED from 30_encoding.md
R81, safe; log entry 16). -/
def takeFault (h : Word) (f : Raise) (s : State) : State :=
  { s with
    status := faultStatus f.code.number
    finfo0 := f.info0
    finfo1 := f.info1
    fcmd := h
    resp := s.resp ++ [⟨f.code.number, 0⟩] }

/-- The end of a drawing command with header word `h`: OK, or fault entry with the writes made so far kept. -/
def finish (h : Word) : Drawn → Result
  | .done s => returnOk 0 s
  | .raised f s => .next (takeFault h f s)

/-- `emit e` (00_scope.md R15). -/
def State.emit (s : State) (e : Event) : State := { s with out := s.out ++ [e] }

/-- Control register `n` (10_state.md R23), for n ≤ 4. -/
def State.cr (s : State) : Nat → Word
  | 0 => s.status
  | 1 => s.finfo0
  | 2 => s.finfo1
  | 3 => s.fcmd
  | _ => BitVec.ofNat 32 s.cfg.nsurf

/-! ### The checks of decoding -/

/-- Steps 2 and 5 of R89 for a command on surface `t`, then the command's own rule. -/
def onSurface (t : Byte) (s : State) (body : State → Result) : Result :=
  if s.isFaulted then raiseError .faulted s
  else if t.toNat < s.cfg.nsurf then body s
  else raiseError .illegalCommand s

/-- Steps 2, 4 and 5 of R89 for a command on surface `t` with operands, then the command's own rule. -/
def withOperands {α : Type} (t : Byte) (ops : Packed α) (s : State) (body : α → State → Result) : Result :=
  match ops with
  | .fields o => onSurface t s (body o)
  | .otherLen _ => if s.isFaulted then raiseError .faulted s else raiseError .illegalCommand s

/-- A packet with a reserved opcode: `Faulted` comes before `IllegalCommand` (R89 steps 2 and 3, R90). -/
def rejectReserved (s : State) : Result :=
  if s.isFaulted then raiseError .faulted s else raiseError .illegalCommand s

/-! ### The command port and reset -/

/-- The host presents words at the command port (00_scope.md R12). -/
def State.present (s : State) (ws : List Word) : State := { s with port := s.port ++ ws }

/-- The words left at the command port once a packet is consumed (R80). -/
def State.consume (s : State) (rest : List Word) : State := { s with port := rest }

/-- A list of words that is no whole packet: the command port waits and nothing happens (R80, 70_reset_and_hazards.md R302). -/
def waitForWords (s : State) : Result := .next s

/-- Put words in front of the command port, so that they are the next packet. -/
def State.placeNext (s : State) (ws : List Word) : State := { s with port := ws ++ s.port }

/-- The surfaces with new contents after reset, in order; a surface for which none are given keeps its own. -/
def reinit : List SurfaceConfig → List (List Byte) → List SurfaceConfig
  | [], _ => []
  | ds, [] => ds
  | d :: ds, b :: bs => ⟨d.width, d.height, b⟩ :: reinit ds bs

/-- Reset asserted in state `s` (70_reset_and_hazards.md R300 to R302): `inits` are the bytes the buffers then hold, surface by
surface; the other parameters are not changed, and a packet in flight is dropped without a response. It stands between steps and
empties `resp` (DESIGN CHOICE, safe; log entry 14). -/
def State.assertReset (s : State) (inits : List (List Byte)) : State :=
  State.resetWith { s.cfg with surfaces := reinit s.cfg.surfaces inits }

end Sys2Proof.Machine
end

