-- ==== Sys2Proof/Machine/Blit.lean ====
section
/-! DEFINITION. The same-size image blit (45_blit.md). -/

namespace Sys2Proof.Machine

open Sys2Proof

/-- Copy pixel (x, y) of surface `src` to pixel (x, y) of surface `t` (R235). -/
def copyPixel (src t : Nat) (x y : Int) (s : State) : Drawn :=
  match pixRead src x y s with
  | .ok v => pixWrite t x y v s
  | .error f => .raised f s

/-- The row-major copy of R235, `w` columns and `h` rows. -/
def copyRect (src t w h : Nat) (s : State) : Drawn :=
  loop h (fun yy => loop w (fun xx => copyPixel src t xx yy)) s

/-- R235's accepted test: the source rectangle covers the source, the rectangles are identical in size, the opacity is
`OPAQUE`. `xDst` and `yDst` are not tested (R238; followed, not refused: log entry 13). -/
def blitAccepted (c : Config) (o : BlitOps) : Bool :=
  decide (s32 o.xSrc = 0) && decide (s32 o.ySrc = 0)
    && decide (s32 o.widthSrc = (c.width (u32 o.src) : Int)) && decide (s32 o.heightSrc = (c.height (u32 o.src) : Int))
    && decide (s32 o.widthDst = s32 o.widthSrc) && decide (s32 o.heightDst = s32 o.heightSrc)
    && decide (o.opacity = c.fullOpacity)

/-- `R.STRETCHIMAGE` (R235 to R239). A source that does not exist is step 7 of 30_encoding.md R89. -/
def execRStretchImage (t : Byte) (ops : Packed BlitOps) (s : State) : Result :=
  withOperands t ops s fun o s =>
    if u32 o.src ≥ s.cfg.nsurf then raiseError .illegalCommand s
    else if blitAccepted s.cfg o then
      finish (headerWord opcRStretchImage t 10)
        (copyRect (u32 o.src) t.toNat (s32 o.widthDst).toNat (s32 o.heightDst).toNat s)
    else raiseError .unsupported s

end Sys2Proof.Machine
end

