-- ==== Sys2Proof/Machine/DrawTarget.lean ====
section
/-! DEFINITION. The draw-target commands DT.* (40_drawtarget.md). -/

namespace Sys2Proof.Machine

open Sys2Proof

/-- Read pixel (x, y) of surface `t` and return its colour with `alpha` in bits 31:24; the fault entry's header word is `h`. Shared
by R120 (alpha 0) and R151 (alpha `ARGB_ALPHA_OUT`). -/
def getPixelOp (h : Word) (t : Byte) (alpha : Byte) (o : PointOps) (s : State) : Result :=
  match pixRead t.toNat (s32 o.x) (s32 o.y) s with
  | .ok v => returnOk (Color.packed alpha (dec565 v)) s
  | .error f => .next (takeFault h f s)

/-- Write the colour at pixel (x, y) of surface `t`. Shared by R121 and R152. -/
def setPixelOp (h : Word) (t : Byte) (o : PixelOps) (s : State) : Result :=
  finish h (pixWrite t.toNat (s32 o.x) (s32 o.y) (enc565 (color32 o.color)) s)

/-- The buffer length W·H·2 as a response value. Shared by R124 and R155. -/
def bufLenOp (t : Byte) (s : State) : Result := returnOk (BitVec.ofNat 32 (s.cfg.bufLen t.toNat)) s

/-- W as a response value. Shared by R127 and R153. -/
def widthOp (t : Byte) (s : State) : Result := returnOk (BitVec.ofNat 32 (s.cfg.width t.toNat)) s

/-- H as a response value. Shared by R128 and R154. -/
def heightOp (t : Byte) (s : State) : Result := returnOk (BitVec.ofNat 32 (s.cfg.height t.toNat)) s

/-- Clear surface `t` to black. Shared by R122 and R150. -/
def clearOp (t : Byte) (s : State) : Result := returnOk 0 (s.bulkClear t.toNat)

/-- `DT.GETPIXEL` (R120). -/
def execDtGetPixel (t : Byte) (ops : Packed PointOps) (s : State) : Result :=
  withOperands t ops s (getPixelOp (headerWord opcDtGetPixel t 2) t 0)

/-- `DT.SETPIXEL` (R121). -/
def execDtSetPixel (t : Byte) (ops : Packed PixelOps) (s : State) : Result :=
  withOperands t ops s (setPixelOp (headerWord opcDtSetPixel t 3) t)

/-- `DT.CLEAR` (R122): only black succeeds. -/
def execDtClear (t : Byte) (ops : Packed Word) (s : State) : Result :=
  withOperands t ops s fun color s =>
    if (color32 color).isBlack then clearOp t s else raiseError .unsupported s

/-- `DT.GETDATA` (R124). -/
def execDtGetData (t : Byte) (ops : Packed Unit) (s : State) : Result :=
  withOperands t ops s fun _ => bufLenOp t

/-- `DT.FLUSH` (R125). -/
def execDtFlush (t : Byte) (ops : Packed Unit) (s : State) : Result :=
  withOperands t ops s fun _ s => returnOk 0 (s.emit (.dtFlush t))

/-- `DT.DISPOSE` (R126): nothing changes at all. -/
def execDtDispose (t : Byte) (ops : Packed Unit) (s : State) : Result :=
  withOperands t ops s fun _ => returnOk 0

/-- `DT.WIDTH` (R127). -/
def execDtWidth (t : Byte) (ops : Packed Unit) (s : State) : Result :=
  withOperands t ops s fun _ => widthOp t

/-- `DT.HEIGHT` (R128). -/
def execDtHeight (t : Byte) (ops : Packed Unit) (s : State) : Result :=
  withOperands t ops s fun _ => heightOp t

end Sys2Proof.Machine
end

