-- ==== Sys2Proof/Machine/Line.lean ====
section
/-! DEFINITION. The Bresenham line rasterizer and `R.DRAWLINE` (42_line.md). -/

namespace Sys2Proof.Machine

open Sys2Proof

/-- Where a walk along the major axis stands: major and minor coordinate and the error term. -/
structure Walk where
  major : Int
  minor : Int
  e     : Int
  deriving DecidableEq, Repr

/-- One iteration of R171's loops: the minor step and the subtraction of the doubled major delta when the error is
non-negative, BEFORE the major step and the addition of the doubled minor delta. -/
def Walk.next (sMajor sMinor major2 minor2 : Int) (k : Walk) : Walk :=
  if 0 ≤ k.e then ⟨k.major + sMajor, k.minor + sMinor, k.e - major2 + minor2⟩
  else ⟨k.major + sMajor, k.minor, k.e + minor2⟩

/-- The loop of R171: step, plot, repeat. The count is the undoubled major delta, which is how often `while x != x1` runs, since
the major coordinate moves by one unit a time (DEDUCED: R172, log entry 12). -/
def walkLoop (plot : Int → Int → State → Drawn) (sMajor sMinor major2 minor2 : Int) :
    Nat → Walk → State → Drawn
  | 0, _, s => .done s
  | n + 1, k, s =>
    let k' := k.next sMajor sMinor major2 minor2
    (plot k'.major k'.minor s).andThen (walkLoop plot sMajor sMinor major2 minor2 n k')

/-- The step direction of a delta: "normalize signs into step directions" (R171). -/
def stepDir (d : Int) : Int := if d < 0 then -1 else 1

/-- The delta with its sign removed (R171). -/
def deltaSize (d : Int) : Int := if d < 0 then -d else d

/-- R171 after the first endpoint is plotted: x is the major axis when the doubled x delta is strictly larger, else y. -/
def lineWalk (t : Nat) (v : Pixel) (x0 y0 x1 y1 : Int) (s : State) : Drawn :=
  let sx := stepDir (x1 - x0)
  let sy := stepDir (y1 - y0)
  let dx := deltaSize (x1 - x0)
  let dy := deltaSize (y1 - y0)
  let dx2 := 2 * dx
  let dy2 := 2 * dy
  if dx2 > dy2 then
    walkLoop (fun x y => pixWrite t x y v) sx sy dx2 dy2 dx.toNat ⟨x0, y0, dy2 - dx⟩ s
  else
    walkLoop (fun y x => pixWrite t x y v) sy sx dy2 dx2 dy.toNat ⟨y0, x0, dx2 - dy⟩ s

/-- `Line(t, v, x0, y0, x1, y1)` (R171). -/
def line (t : Nat) (v : Pixel) (x0 y0 x1 y1 : Int) (s : State) : Drawn :=
  (pixWrite t x0 y0 v s).andThen (lineWalk t v x0 y0 x1 y1)

/-- `R.DRAWLINE` (R170): the thickness test comes before any pixel. -/
def execRDrawLine (t : Byte) (ops : Packed LineOps) (s : State) : Result :=
  withOperands t ops s fun o s =>
    if s32 o.thickness ≠ 1 then raiseError .unsupported s
    else finish (headerWord opcRDrawLine t 6)
      (line t.toNat (enc565 (color32 o.color)) (s32 o.x0) (s32 o.y0) (s32 o.x1) (s32 o.y1) s)

end Sys2Proof.Machine
end

