-- ==== Sys2Proof/Machine/Rectangle.lean ====
section
/-! DEFINITION. The rectangle outline unit and the ellipse command (43_rectangle_ellipse.md). -/

namespace Sys2Proof.Machine

open Sys2Proof

/-- The four border lines in the order top row, bottom row, left column, right column (R190, R193). -/
def rectOutline (t : Nat) (v : Pixel) (x y w h : Int) (s : State) : Drawn :=
  let xr := x + w - 1
  let yb := y + h - 1
  (line t v x y xr y s).andThen fun s =>
    (line t v x yb xr yb s).andThen fun s =>
      (line t v x y x yb s).andThen fun s => line t v xr y xr yb s

/-- `R.DRAWRECT` (R190 to R193): thickness and opacity first, then the sizes that draw nothing; zero sizes draw nothing by the
spec's decision (DESIGN CHOICE to follow it, safe against the spec; log entry 13). -/
def execRDrawRect (t : Byte) (ops : Packed RectOps) (s : State) : Result :=
  withOperands t ops s fun o s =>
    if s32 o.thickness ≠ 1 ∨ o.opacity ≠ s.cfg.fullOpacity then raiseError .unsupported s
    else if s32 o.width ≤ 0 ∨ s32 o.height ≤ 0 then returnOk 0 s
    else finish (headerWord opcRDrawRect t 9)
      (rectOutline t.toNat (enc565 (color32 o.color)) (s32 o.x) (s32 o.y) (s32 o.width) (s32 o.height) s)

/-- `R.DRAWELLIPSE` (R195): always `NotImplemented`, whatever the operands. -/
def execRDrawEllipse (t : Byte) (_words : List Word) (s : State) : Result :=
  onSurface t s (raiseError .notImplemented)

end Sys2Proof.Machine
end

