-- ==== Sys2Proof/Machine/Renderer.lean ====
section
/-! DEFINITION. The renderer's pixel, clear, size, bitmap and flush commands R.* (41_renderer_pixel.md). -/

namespace Sys2Proof.Machine

open Sys2Proof

/-- `R.CLEAR` (R150). -/
def execRClear (t : Byte) (ops : Packed Unit) (s : State) : Result :=
  withOperands t ops s fun _ => clearOp t

/-- `R.GETPIXEL` (R151): bits 31:24 of VALUE are the parameter `ARGB_ALPHA_OUT`. -/
def execRGetPixel (t : Byte) (ops : Packed PointOps) (s : State) : Result :=
  withOperands t ops s (getPixelOp (headerWord opcRGetPixel t 2) t s.cfg.alphaOut)

/-- `R.SETPIXEL` (R152): the alpha byte is dropped. -/
def execRSetPixel (t : Byte) (ops : Packed PixelOps) (s : State) : Result :=
  withOperands t ops s (setPixelOp (headerWord opcRSetPixel t 3) t)

/-- `R.WIDTH` (R153). -/
def execRWidth (t : Byte) (ops : Packed Unit) (s : State) : Result :=
  withOperands t ops s fun _ => widthOp t

/-- `R.HEIGHT` (R154). -/
def execRHeight (t : Byte) (ops : Packed Unit) (s : State) : Result :=
  withOperands t ops s fun _ => heightOp t

/-- `R.GETBITMAP` (R155): equals `DT.GETDATA`. -/
def execRGetBitmap (t : Byte) (ops : Packed Unit) (s : State) : Result :=
  withOperands t ops s fun _ => bufLenOp t

/-- `R.FLUSH` (R156): the handle is passed on unread, and no `DtFlush` is emitted. -/
def execRFlush (t : Byte) (ops : Packed Word) (s : State) : Result :=
  withOperands t ops s fun handle s => returnOk 0 (s.emit (.rFlush t handle))

end Sys2Proof.Machine
end

