-- ==== Sys2Proof/Machine/System.lean ====
section
/-! DEFINITION. `SYS.RDREG` (46_system.md). -/

namespace Sys2Proof.Machine

open Sys2Proof

/-- `SYS.RDREG` (R250): it runs while FAULT = 1 and ignores SURF (30_encoding.md R89 step 1). -/
def execSysRdReg (_t : Byte) (ops : Packed Word) (s : State) : Result :=
  match ops with
  | .fields n => if u32 n > 4 then raiseError .illegalCommand s else returnOk (s.cr (u32 n)) s
  | .otherLen _ => raiseError .illegalCommand s

end Sys2Proof.Machine
end

