-- ==== Sys2Proof/Machine/Text.lean ====
section
/-! DEFINITION. The glyph rasterizer, text layout, and the two text commands (44_text.md). -/

namespace Sys2Proof.Machine

open Sys2Proof

/-- Entry `g` of the glyph ROM (R207). -/
def glyphEntry (c : Config) (g : Nat) : List Byte := c.glyphs.getD g []

/-- Row `r`, column `col` of a glyph is lit: bit `r`, of weight 2^r, of byte `col` (R207). -/
def litBit (glyph : List Byte) (col r : Nat) : Bool := (glyph.getD col 0).getLsbD r

/-- `Glyph(t, v, g, cx, cy, scale)` (R208), loops in the order columns, horizontal replication, rows, vertical replication. An
unlit bit writes nothing. -/
def drawGlyph (t : Nat) (v : Pixel) (glyph : List Byte) (cx cy scale : Int) (s : State) : Drawn :=
  loop 5 (fun c => loop scale.toNat (fun hs => loop 8 (fun r => loop scale.toNat (fun vs s =>
    if litBit glyph c r then pixWrite t (cx + c * scale + hs) (cy + r * scale + vs) v s
    else .done s)))) s

/-- The loop over the characters of R205: `i` is the index of the next character, (cx, cy) the cursor, `x` the left margin. -/
def textLoop (t : Nat) (v : Pixel) (x scale : Int) : List Word → Nat → Int → Int → State → Drawn
  | [], _, _, _, s => .done s
  | p :: ps, i, cx, cy, s =>
    if 32 ≤ u32 p then
      if 126 < u32 p then .raised (.glyphRange (u32 p) i) s
      else
        (drawGlyph t v (glyphEntry s.cfg (u32 p - 32)) cx cy scale s).andThen
          (textLoop t v x scale ps (i + 1) (cx + 6 * scale) cy)
    else if u32 p = 10 then textLoop t v x scale ps (i + 1) x (cy + 9 * scale) s
    else if u32 p = 13 then textLoop t v x scale ps (i + 1) x cy s
    else textLoop t v x scale ps (i + 1) cx cy s

/-- `R.DRAWTEXT` (R205, R210). The reserved TFLAGS bits are step 6 of 30_encoding.md R89. -/
def execRDrawText (t : Byte) (ops : Packed TextOps) (s : State) : Result :=
  withOperands t ops s fun o s =>
    if tflagsReserved o.tflags ≠ 0 then raiseError .illegalCommand s
    else if textPresent o.tflags = false ∨ fontPresent o.tflags = false then raiseError .invalidArgument s
    else if u32 o.family ≠ 0 then raiseError .unsupported s
    else finish (headerWord opcRDrawText t (6 + o.text.length))
      (textLoop t.toNat (enc565 (color32 o.color)) (s32 o.x) (textScale o.size) o.text 0 (s32 o.x) (s32 o.y) s)

/-- `R.DRAWTEXTINRECT` (R215): always `NotImplemented`, whatever the operands. -/
def execRDrawTextInRect (t : Byte) (_words : List Word) (s : State) : Result :=
  onSurface t s (raiseError .notImplemented)

end Sys2Proof.Machine
end

