-- ==== Sys2Proof/Machine/Dispatch.lean ====
section
/-! DEFINITION. The meaning of each command, one arm per constructor of Instr. -/

namespace Sys2Proof.Machine

open Sys2Proof

def exec (i : Instr) (s : State) : Host.Outcome State Fault Refusal :=
  match i with
  | .dtGetPixel t ops => Sys2Proof.Machine.execDtGetPixel t ops s
  | .dtSetPixel t ops => Sys2Proof.Machine.execDtSetPixel t ops s
  | .dtClear t ops => Sys2Proof.Machine.execDtClear t ops s
  | .dtGetData t ops => Sys2Proof.Machine.execDtGetData t ops s
  | .dtFlush t ops => Sys2Proof.Machine.execDtFlush t ops s
  | .dtDispose t ops => Sys2Proof.Machine.execDtDispose t ops s
  | .dtWidth t ops => Sys2Proof.Machine.execDtWidth t ops s
  | .dtHeight t ops => Sys2Proof.Machine.execDtHeight t ops s
  | .rClear t ops => Sys2Proof.Machine.execRClear t ops s
  | .rGetPixel t ops => Sys2Proof.Machine.execRGetPixel t ops s
  | .rSetPixel t ops => Sys2Proof.Machine.execRSetPixel t ops s
  | .rDrawLine t ops => Sys2Proof.Machine.execRDrawLine t ops s
  | .rDrawRect t ops => Sys2Proof.Machine.execRDrawRect t ops s
  | .rDrawEllipse t words => Sys2Proof.Machine.execRDrawEllipse t words s
  | .rDrawText t ops => Sys2Proof.Machine.execRDrawText t ops s
  | .rDrawTextInRect t words => Sys2Proof.Machine.execRDrawTextInRect t words s
  | .rStretchImage t ops => Sys2Proof.Machine.execRStretchImage t ops s
  | .rGetBitmap t ops => Sys2Proof.Machine.execRGetBitmap t ops s
  | .rFlush t ops => Sys2Proof.Machine.execRFlush t ops s
  | .rWidth t ops => Sys2Proof.Machine.execRWidth t ops s
  | .rHeight t ops => Sys2Proof.Machine.execRHeight t ops s
  | .sysRdReg t ops => Sys2Proof.Machine.execSysRdReg t ops s

end Sys2Proof.Machine
end

