-- ==== Sys2Proof/Machine/Step.lean ====
section
/-! DEFINITION. One step: take the next packet from the command port and answer it (00_scope.md R13, 30_encoding.md R80, R89). -/

namespace Sys2Proof.Machine

open Sys2Proof

/-- While the command port holds no whole packet nothing happens; else the packet is consumed and its command executed, or the
reserved opcode rejected. One packet is one step: no timing (DESIGN CHOICE, safe; log entry 17). -/
def step (s : State) : Host.Outcome State Fault Refusal :=
  match splitPacket s.port with
  | none => waitForWords s
  | some (p, rest) =>
    match decodePacket p with
    | .ok i => exec i (s.consume rest)
    | .error _ => rejectReserved (s.consume rest)

/-- `s` with the packet of a table row's bits as the next packet at the command port (log entries 6 and 9). -/
def State.withFetchWord (s : State) (nbits w : Nat) : State := s.placeNext (tableWords nbits w)

end Sys2Proof.Machine
end

