-- ==== Sys2Proof/Safety.lean ====
section
/-! DEFINITION. The terms statements about PXE are made in: a surface that is ready for a command, what a state must satisfy in
every run, and what a safe run is. -/

namespace Sys2Proof.Machine

open Sys2Proof

/-- A safe state: no fault has been taken since reset. "No claim about a program should be provable through a run that
faults" (60_exceptions.md R269). -/
def State.Safe (s : State) : Prop := s.isFaulted = false

/-- The machine is not faulted and surface `t` exists: what 30_encoding.md R89 asks of every command but `SYS.RDREG` before its
operands are looked at (steps 2 and 5). -/
def State.Ready (s : State) (t : Byte) : Prop := s.isFaulted = false ∧ t.toNat < s.cfg.nsurf

/-- There is one buffer for each surface, each in its canonical form and inside its length (10_state.md R25, R26). -/
def State.BufsOk (s : State) : Prop :=
  s.bufs.length = s.cfg.nsurf ∧
    ∀ t, t < s.cfg.nsurf → Memory.wf (s.initBuf t) (s.cfg.bufLen t) (s.buf t) = true

/-- The opcodes of the commands that can raise `PixelRange` (60_exceptions.md R266). -/
def pixelOpcodes : List Byte := [0x01, 0x02, 0x11, 0x12, 0x13, 0x14, 0x16, 0x18]

/-- The fault record is legal (10_state.md R23): either nothing has faulted and `cr[0]` to `cr[3]` hold their reset values, or
FAULT = 1, FCODE is 5 or 6, the reserved bits are 0, and FCMD is the header of a command that can raise that fault on a
surface that exists. -/
def State.RecordOk (s : State) : Prop :=
  (s.status = 0 ∧ s.finfo0 = 0 ∧ s.finfo1 = 0 ∧ s.fcmd = 0) ∨
  (s.status = 0x501 ∧ headerOpc s.fcmd ∈ pixelOpcodes ∧ (headerSurf s.fcmd).toNat < s.cfg.nsurf) ∨
  (s.status = 0x601 ∧ headerOpc s.fcmd = 0x16 ∧ (headerSurf s.fcmd).toNat < s.cfg.nsurf ∧ 126 < s.finfo0.toNat)

/-- A response is legal: one of the eight codes, and VALUE = 0 with every code but OK (30_encoding.md R86, 60_exceptions.md
R261). -/
def Response.Ok (r : Response) : Prop := r.code.toNat ≤ 7 ∧ (r.code ≠ 0 → r.value = 0)

/-- What holds at reset and after every step. -/
structure State.Inv (s : State) : Prop where
  config  : s.cfg.wf = true
  bufs    : s.BufsOk
  record  : s.RecordOk
  answers : ∀ r ∈ s.resp, r.Ok

/-! ### Frames -/

/-- Everything but the buffers and the responses is as before: configuration, the four control registers, `OUT`, and the words
still at the command port. -/
def State.SameButBufs (s s' : State) : Prop :=
  s'.cfg = s.cfg ∧ s'.status = s.status ∧ s'.finfo0 = s.finfo0 ∧ s'.finfo1 = s.finfo1 ∧ s'.fcmd = s.fcmd ∧
    s'.out = s.out ∧ s'.port = s.port

/-- The fault record and the response are those of 60_exceptions.md R269, and configuration, `OUT` and command port are as before. -/
def State.FaultedWith (s s' : State) (code : Byte) (info0 info1 header : Word) : Prop :=
  s'.status = (0#16 ++ code ++ 0x01#8) ∧ s'.finfo0 = info0 ∧ s'.finfo1 = info1 ∧ s'.fcmd = header ∧
    s'.resp = s.resp ++ [⟨code, 0⟩] ∧ s'.cfg = s.cfg ∧ s'.out = s.out ∧ s'.port = s.port

/-- Byte `o` of surface `u` is one of the two bytes of pixel (x, y) of surface `t` (20_memory.md R51). -/
def ByteOfPixel (c : Config) (t : Nat) (x y : Int) (u o : Nat) : Prop :=
  u = t ∧ (o = pixelOffset c t x y ∨ o = pixelOffset c t x y + 1)

/-- The pixels of surface `t` in `P` hold `v`, and every byte of every buffer that is not a byte of a pixel in `P` is as before. -/
def PaintsOnly (t : Nat) (v : Pixel) (P : Int → Int → Prop) (s s' : State) : Prop :=
  (∀ x y, P x y → inRange s.cfg t x y = true → s'.readPixel t (pixelOffset s.cfg t x y) = v) ∧
    ∀ u o, (∀ x y, P x y → inRange s.cfg t x y = true → ¬ ByteOfPixel s.cfg t x y u o) →
      s'.readByte u o = s.readByte u o

/-! ### What a line, a rectangle and a text cover, in closed form -/

/-- Plot pixels in order until one is out of range. -/
def plotAll (t : Nat) (v : Pixel) : List (Int × Int) → State → Drawn
  | [], s => .done s
  | p :: ps, s => (pixWrite t p.1 p.2 v s).andThen (plotAll t v ps)

/-- M, the major length of a line (42_line.md R172). -/
def lineMajor (x0 y0 x1 y1 : Int) : Nat := max (x1 - x0).natAbs (y1 - y0).natAbs

/-- m, the minor length of a line (42_line.md R172). -/
def lineMinor (x0 y0 x1 y1 : Int) : Nat := min (x1 - x0).natAbs (y1 - y0).natAbs

/-- `floor((2·k·m + M) / (2·M))`, the minor steps made when the k-th pixel is plotted (42_line.md R172); 0 when M = 0. -/
def minorSteps (M m k : Nat) : Nat := (2 * k * m + M) / (2 * M)

/-- The k-th pixel of a line in the closed form of 42_line.md R172. -/
def linePixel (x0 y0 x1 y1 : Int) (k : Nat) : Int × Int :=
  let j := minorSteps (lineMajor x0 y0 x1 y1) (lineMinor x0 y0 x1 y1) k
  if (x1 - x0).natAbs > (y1 - y0).natAbs then (x0 + (x1 - x0).sign * k, y0 + (y1 - y0).sign * j)
  else (x0 + (x1 - x0).sign * j, y0 + (y1 - y0).sign * k)

/-- The M + 1 pixels of a line, first endpoint to second endpoint (42_line.md R172). -/
def linePixels (x0 y0 x1 y1 : Int) : List (Int × Int) :=
  (List.range (lineMajor x0 y0 x1 y1 + 1)).map (linePixel x0 y0 x1 y1)

/-- The k-th pixel of the line that the operands of `R.DRAWLINE` name. -/
def lineOpsPixel (o : LineOps) (k : Nat) : Int × Int := linePixel o.x0.toInt o.y0.toInt o.x1.toInt o.y1.toInt k

/-- The border of the block x ≤ px ≤ x + w − 1, y ≤ py ≤ y + h − 1 (43_rectangle_ellipse.md R191). -/
def RectBorder (x y w h px py : Int) : Prop :=
  x ≤ px ∧ px ≤ x + w - 1 ∧ y ≤ py ∧ py ≤ y + h - 1 ∧ (px = x ∨ px = x + w - 1 ∨ py = y ∨ py = y + h - 1)

/-- How many characters with a glyph stand before character `j` on its line, that is since the last line feed or carriage
return (44_text.md R209). -/
def textColumn (text : List Word) (j : Nat) : Nat :=
  ((text.take j).reverse.takeWhile (fun p => decide (u32 p ≠ 10 ∧ u32 p ≠ 13))).countP (fun p => decide (32 ≤ u32 p))

/-- How many line feeds stand before character `j` (44_text.md R209). -/
def textRow (text : List Word) (j : Nat) : Nat := (text.take j).countP (fun p => decide (u32 p = 10))

/-- Pixel (px, py) is lit by character `j` of a text drawn at (x, y) (44_text.md R208, R209). -/
def CharLights (c : Config) (text : List Word) (x y scale : Int) (j : Nat) (px py : Int) : Prop :=
  ∃ p, text[j]? = some p ∧ 32 ≤ u32 p ∧
    ∃ col r hs vs : Nat, col < 5 ∧ r < 8 ∧ (hs : Int) < scale ∧ (vs : Int) < scale ∧
      litBit (glyphEntry c (u32 p - 32)) col r = true ∧
      px = x + 6 * scale * textColumn text j + col * scale + hs ∧
      py = y + 9 * scale * textRow text j + r * scale + vs

/-- Pixel (px, py) is lit by some character of the text. -/
def TextLights (c : Config) (text : List Word) (x y scale px py : Int) : Prop :=
  ∃ j, CharLights c text x y scale j px py

/-! ### The same in the order the pixels are plotted -/

/-- The pixels of the four border lines of a rectangle, in the order they are drawn: top row, bottom row, left column, right
column, each from its left or top end (43_rectangle_ellipse.md R190, R193). -/
def rectPixels (x y w h : Int) : List (Int × Int) :=
  linePixels x y (x + w - 1) y ++ linePixels x (y + h - 1) (x + w - 1) (y + h - 1) ++
    linePixels x y x (y + h - 1) ++ linePixels (x + w - 1) y (x + w - 1) (y + h - 1)

/-- The lit pixels of a glyph with its corner at (cx, cy), in the loop order of 44_text.md R208: columns, horizontal replication,
rows, vertical replication. -/
def glyphPixels (glyph : List Byte) (cx cy scale : Int) : List (Int × Int) :=
  (List.range 5).flatMap fun (c : Nat) => (List.range scale.toNat).flatMap fun (hs : Nat) =>
    (List.range 8).flatMap fun (r : Nat) => (List.range scale.toNat).flatMap fun (vs : Nat) =>
      if litBit glyph c r then [(cx + c * scale + hs, cy + r * scale + vs)] else []

/-- The pixels that character `j` of a text drawn at (x, y) lights, in that order, its corner placed by 44_text.md R209. -/
def charPixels (c : Config) (text : List Word) (x y scale : Int) (j : Nat) : List (Int × Int) :=
  match text[j]? with
  | none => []
  | some p =>
    if 32 ≤ u32 p then
      glyphPixels (glyphEntry c (u32 p - 32)) (x + 6 * scale * textColumn text j) (y + 9 * scale * textRow text j) scale
    else []

/-- The lit pixels of a text, character by character (44_text.md R205). -/
def textPixels (c : Config) (text : List Word) (x y scale : Int) : List (Int × Int) :=
  (List.range text.length).flatMap (charPixels c text x y scale)

/-- Pixel `k` of the list is `p`, it is out of range for surface `t`, and every pixel before it is in range. -/
def FirstOutside (c : Config) (t : Nat) (ps : List (Int × Int)) (k : Nat) (p : Int × Int) : Prop :=
  ps[k]? = some p ∧ inRange c t p.1 p.2 = false ∧ ∀ q ∈ ps.take k, inRange c t q.1 q.2 = true

/-! ### When a command is rejected -/

/-- The operands came with a LEN that is not the command's. -/
def WrongLen {α : Type} : Packed α → Prop
  | .fields _ => False
  | .otherLen _ => True

/-- The causes of `IllegalCommand` for a command of 30_encoding.md R88 (60_exceptions.md R265): wrong LEN; SURF ≥ NSURF;
TFLAGS bits 31:2 not zero; a blit source ≥ NSURF; for `SYS.RDREG` a register number above 4, SURF being ignored. -/
def IllegalIn (c : Config) : Instr → Prop
  | .sysRdReg _ (.fields n) => 4 < u32 n
  | .sysRdReg _ (.otherLen _) => True
  | .rDrawText t (.fields o) => c.nsurf ≤ t.toNat ∨ o.tflags.extractLsb' 2 30 ≠ 0
  | .rStretchImage t (.fields o) => c.nsurf ≤ t.toNat ∨ c.nsurf ≤ u32 o.src
  | .rDrawEllipse t _ | .rDrawTextInRect t _ => c.nsurf ≤ t.toNat
  | .dtGetPixel t o | .rGetPixel t o => c.nsurf ≤ t.toNat ∨ WrongLen o
  | .dtSetPixel t o | .rSetPixel t o => c.nsurf ≤ t.toNat ∨ WrongLen o
  | .dtClear t o | .rFlush t o => c.nsurf ≤ t.toNat ∨ WrongLen o
  | .dtGetData t o | .dtFlush t o | .dtDispose t o | .dtWidth t o | .dtHeight t o | .rClear t o
  | .rGetBitmap t o | .rWidth t o | .rHeight t o => c.nsurf ≤ t.toNat ∨ WrongLen o
  | .rDrawLine t o => c.nsurf ≤ t.toNat ∨ WrongLen o
  | .rDrawRect t o => c.nsurf ≤ t.toNat ∨ WrongLen o
  | .rDrawText _ (.otherLen _) => True
  | .rStretchImage _ (.otherLen _) => True

/-- The causes of `InvalidArgument` (60_exceptions.md R263): `R.DRAWTEXT` with TEXT_PRESENT = 0 or FONT_PRESENT = 0. -/
def InvalidArgumentIn : Instr → Prop
  | .rDrawText _ (.fields o) => o.tflags.getLsbD 0 = false ∨ o.tflags.getLsbD 1 = false
  | _ => False

/-- The causes of `Unsupported` in 60_exceptions.md R262's table. -/
def UnsupportedIn (c : Config) : Instr → Prop
  | .dtClear _ (.fields color) => ¬ (color.extractLsb' 16 8 = 0 ∧ color.extractLsb' 8 8 = 0 ∧ color.extractLsb' 0 8 = 0)
  | .rDrawLine _ (.fields o) => o.thickness.toInt ≠ 1
  | .rDrawRect _ (.fields o) => o.thickness.toInt ≠ 1 ∨ o.opacity ≠ c.fullOpacity
  | .rDrawText _ (.fields o) => o.tflags.getLsbD 0 = true ∧ o.tflags.getLsbD 1 = true ∧ o.family ≠ 0
  | .rStretchImage _ (.fields o) =>
    o.xSrc.toInt ≠ 0 ∨ o.ySrc.toInt ≠ 0 ∨ o.widthSrc.toInt ≠ c.width o.src.toNat ∨
      o.heightSrc.toInt ≠ c.height o.src.toNat ∨ o.widthDst.toInt ≠ o.widthSrc.toInt ∨
      o.heightDst.toInt ≠ o.heightSrc.toInt ∨ o.opacity ≠ c.fullOpacity
  | _ => False

/-- The commands that return a value (30_encoding.md R86). -/
def ReturnsValue : Instr → Prop
  | .dtGetPixel _ _ | .dtGetData _ _ | .dtWidth _ _ | .dtHeight _ _ | .rGetPixel _ _ | .rGetBitmap _ _
  | .rWidth _ _ | .rHeight _ _ | .sysRdReg _ _ => True
  | _ => False

/-- The commands that write a buffer (10_state.md R29). -/
def WritesBuffer : Instr → Prop
  | .dtSetPixel _ _ | .dtClear _ _ | .rClear _ _ | .rSetPixel _ _ | .rDrawLine _ _ | .rDrawRect _ _
  | .rDrawText _ _ | .rStretchImage _ _ => True
  | _ => False

/-- The commands that write `OUT` (10_state.md R29). -/
def WritesOut : Instr → Prop
  | .dtFlush _ _ | .rFlush _ _ => True
  | _ => False

end Sys2Proof.Machine
end

