-- ==== Sys2Proof/Certificates/Slice0/Obligations.lean ====
section
/-! DEFINITION. The statements for the provers. Each says what PXE does on every state, for every configuration (the
configuration is a field of the state). -/

open Sys2Proof Sys2Proof.Machine

/-! ### Encoding, decoding, the command port -/

/-- 30_encoding.md R88, R92 and the examples of 40 R120, 42 R170, 44 R205, 46 R250; 95 V193: words written out in the spec
decode to the commands they stand for, and a reserved opcode (V184) to none. The fourth clause is the model's choice, not the spec's
(DESIGN CHOICE, log entry 10): R89 step 4 and V188 reject that packet for its LEN, and the model decodes it to `DT.WIDTH` with the
wrong LEN kept, for the command's meaning to reject. -/
def Obligations.SpecWordsDecode : Prop :=
  decode [0x00020001, 0x00000002, 0x00000001] = .ok (.dtGetPixel 0 (.fields ⟨2, 1⟩), []) ∧
  decode [0x00060013, 0x00FF0000, 0x00000001, 0x00000000, 0x00000000, 0x00000004, 0x00000002] =
    .ok (.rDrawLine 0 (.fields ⟨0x00FF0000, 1, 0, 0, 4, 2⟩), []) ∧
  decode [0x00070016, 0x00000003, 0x00000000, 0x00000008, 0x00FFFFFF, 0x00000000, 0x00000000, 0x00000041] =
    .ok (.rDrawText 0 (.fields ⟨3, 0, 8, 0x00FFFFFF, 0, 0, [0x41]⟩), []) ∧
  decode [0x00010007, 0x00000000] = .ok (.dtWidth 0 (.otherLen [0]), []) ∧
  decode [0x0001FF20, 0x00000004] = .ok (.sysRdReg 0xFF (.fields 4), []) ∧
  decode [0x00000009] = .error (.reservedOpcode 0x09)

/-- 30_encoding.md R80 to R85, R88: decoding an encoded well-formed command gives it back, with every operand, and leaves the words
after it. Read with `EncodeOfDecode`: no bit of an encoding is dropped. -/
def Obligations.DecodeOfEncode : Prop :=
  ∀ (i : Instr) (rest : List Word), i.WellFormed → decode (encode i ++ rest) = .ok (i, rest)

/-- 30_encoding.md R80 to R85, R88: what decodes is a well-formed command, and encoding it gives back the words it came from. -/
def Obligations.EncodeOfDecode : Prop :=
  ∀ (ws rest : List Word) (i : Instr), decode ws = .ok (i, rest) → i.WellFormed ∧ encode i ++ rest = ws

/-- 30_encoding.md R90, first sentence: the 22 opcodes of R88 select a command with that opcode and surface, whatever the
operands; every other opcode is reserved. -/
def Obligations.OpcodeSelectsCommand : Prop :=
  ∀ p : Packet,
    (headerOpc p.header ∈ ([0x01, 0x02, 0x03, 0x04, 0x05, 0x06, 0x07, 0x08, 0x10, 0x11, 0x12, 0x13, 0x14, 0x15, 0x16, 0x17,
        0x18, 0x19, 0x1A, 0x1B, 0x1C, 0x20] : List Byte) →
      ∃ i, decodePacket p = .ok i ∧ i.opc = headerOpc p.header ∧ i.surf = headerSurf p.header) ∧
    (headerOpc p.header ∉ ([0x01, 0x02, 0x03, 0x04, 0x05, 0x06, 0x07, 0x08, 0x10, 0x11, 0x12, 0x13, 0x14, 0x15, 0x16, 0x17,
        0x18, 0x19, 0x1A, 0x1B, 0x1C, 0x20] : List Byte) →
      decodePacket p = .error (.reservedOpcode (headerOpc p.header)))

/-- 30_encoding.md R80, R89 (log entry 6, the model's command port): when the words at the command port begin with the packet of a
well-formed command, a step consumes that packet and executes exactly that command. -/
def Obligations.StepRunsDecodedInstruction : Prop :=
  ∀ (s : State) (i : Instr) (rest : List Word), i.WellFormed → s.port = encode i ++ rest →
    step s = exec i { s with port := rest }

/-- 30_encoding.md R80: "the command port waits for the missing words and nothing happens meanwhile". No header word, or fewer
operand words than the header announces. -/
def Obligations.StepWaitsForMissingWords : Prop :=
  ∀ s : State, (s.port = [] ∨ ∃ h ws, s.port = h :: ws ∧ ws.length < (h.extractLsb' 16 16).toNat) → step s = .next s

/-- 30_encoding.md R89 steps 2 and 3, R90: a packet with a reserved opcode is consumed with the operand words its header announced
and answered `Faulted` (7) when FAULT = 1, else `IllegalCommand` (4); nothing else changes. -/
def Obligations.ReservedOpcodeConsumedAndRejected : Prop :=
  ∀ (s : State) (h : Word) (ops rest : List Word),
    s.port = h :: (ops ++ rest) → (h.extractLsb' 16 16).toNat = ops.length →
    h.extractLsb' 0 8 ∉ ([0x01, 0x02, 0x03, 0x04, 0x05, 0x06, 0x07, 0x08, 0x10, 0x11, 0x12, 0x13, 0x14, 0x15, 0x16, 0x17,
        0x18, 0x19, 0x1A, 0x1B, 0x1C, 0x20] : List Byte) →
    step s = .next { s with
      port := rest
      resp := s.resp ++ [⟨if s.status.getLsbD 0 then 7 else 4, 0⟩] }

/-! ### Colours -/

/-- 20_memory.md R54: the encoding formula on natural numbers, and the same as a concatenation of the channels' top bits. -/
def Obligations.Enc565MasksChannels : Prop :=
  ∀ c : Color,
    (enc565 c).toNat =
      ((c.r.toNat &&& 0xF8) <<< 8) ||| ((c.g.toNat &&& 0xFC) <<< 3) ||| ((c.b.toNat &&& 0xF8) >>> 3) ∧
    enc565 c = c.r.extractLsb' 3 5 ++ c.g.extractLsb' 2 6 ++ c.b.extractLsb' 3 5

/-- 20_memory.md R55: the three channels of a pixel value, the low bits zero, also in terms of its two bytes; white decodes to
(0xF8, 0xFC, 0xF8). -/
def Obligations.Dec565ZeroesLowBits : Prop :=
  (∀ v : Pixel,
    (dec565 v).r.toNat = v.toNat / 2 ^ 11 % 32 * 8 ∧
    (dec565 v).g.toNat = v.toNat / 2 ^ 5 % 64 * 4 ∧
    (dec565 v).b.toNat = v.toNat % 32 * 8) ∧
  (∀ hi lo : Byte,
    (dec565 (hi ++ lo)).r = hi &&& 0xF8 ∧
    (dec565 (hi ++ lo)).g = ((hi &&& 0x07) <<< 5) ||| ((lo &&& 0xE0) >>> 3) ∧
    (dec565 (hi ++ lo)).b = (lo &&& 0x1F) <<< 3) ∧
  dec565 0xFFFF = ⟨0xF8, 0xFC, 0xF8⟩

/-- 20_memory.md R59 (a) to (d), (c) at the level of commands: for a colour whose low bits are zero, `DT.SETPIXEL` then
`DT.GETPIXEL` at the same place returns exactly that colour. -/
def Obligations.ColourConversionLaws : Prop :=
  (∀ v : Pixel, enc565 (dec565 v) = v) ∧
  (∀ c : Color, dec565 (enc565 c) = ⟨c.r &&& 0xF8, c.g &&& 0xFC, c.b &&& 0xF8⟩) ∧
  (∀ (s : State) (t : Byte) (x y color : Word), s.Ready t → s.BufsOk →
    inRange s.cfg t.toNat x.toInt y.toInt = true → color &&& 0xFF070307 = 0 →
    ∃ s₁ s₂, exec (.dtSetPixel t (.fields ⟨x, y, color⟩)) s = .next s₁ ∧
      exec (.dtGetPixel t (.fields ⟨x, y⟩)) s₁ = .next s₂ ∧
      s₂.resp = s.resp ++ [⟨0, 0⟩, ⟨0, color⟩]) ∧
  (∀ c : Color, enc565 c = 0 ↔ c.r.toNat < 8 ∧ c.g.toNat < 4 ∧ c.b.toNat < 8) ∧
  (∃ c : Color, c ≠ ⟨0, 0, 0⟩ ∧ enc565 c = 0)

/-! ### Memory -/

/-- 20_memory.md R51, R60: the offset of a pixel in range is even, both its bytes are inside the buffer, and different pixels share
no byte. -/
def Obligations.PixelsAreAlignedAndDisjoint : Prop :=
  ∀ (c : Config) (t : Nat) (x y : Nat), x < c.width t → y < c.height t →
    pixelOffset c t x y = (y * c.width t + x) * 2 ∧ pixelOffset c t x y % 2 = 0 ∧
    pixelOffset c t x y + 1 < c.width t * c.height t * 2 ∧
    ∀ x' y' : Nat, x' < c.width t → y' < c.height t → (x, y) ≠ (x', y') →
      pixelOffset c t x y + 1 < pixelOffset c t x' y' ∨ pixelOffset c t x' y' + 1 < pixelOffset c t x y

/-- 20_memory.md R56: in range the two bytes at (y·W + x)·2, high byte first, as the transfer port shows them; out of range
`PixelRange(x, y)`. No state changes: `pixRead` answers none. -/
def Obligations.PixReadIsChecked : Prop :=
  ∀ (s : State) (t : Nat) (x y : Int), t < s.cfg.nsurf →
    ((0 ≤ x ∧ x < s.cfg.width t ∧ 0 ≤ y ∧ y < s.cfg.height t) →
      ∃ hi lo, xferRead s t (((y * s.cfg.width t + x) * 2).toNat) = some hi ∧
        xferRead s t (((y * s.cfg.width t + x) * 2).toNat + 1) = some lo ∧ pixRead t x y s = .ok (hi ++ lo)) ∧
    (¬ (0 ≤ x ∧ x < s.cfg.width t ∧ 0 ≤ y ∧ y < s.cfg.height t) →
      pixRead t x y s = .error (.pixelRange x y))

/-- 20_memory.md R57: in range exactly the two bytes at (y·W + x)·2 change, to the high and the low byte of the value, and nothing
else; out of range `PixelRange(x, y)` and nothing at all. -/
def Obligations.PixWriteStoresTwoBytes : Prop :=
  ∀ (s : State) (t : Nat) (x y : Int) (v : Pixel), s.BufsOk → t < s.cfg.nsurf →
    ((0 ≤ x ∧ x < s.cfg.width t ∧ 0 ≤ y ∧ y < s.cfg.height t) →
      ∃ s', pixWrite t x y v s = .done s' ∧
        xferRead s' t (((y * s.cfg.width t + x) * 2).toNat) = some (v.extractLsb' 8 8) ∧
        xferRead s' t (((y * s.cfg.width t + x) * 2).toNat + 1) = some (v.extractLsb' 0 8) ∧
        (∀ u o, ¬ (u = t ∧ (o = ((y * s.cfg.width t + x) * 2).toNat ∨ o = ((y * s.cfg.width t + x) * 2).toNat + 1)) →
          xferRead s' u o = xferRead s u o) ∧
        s' = { s with bufs := s'.bufs } ∧ s'.BufsOk) ∧
    (¬ (0 ≤ x ∧ x < s.cfg.width t ∧ 0 ≤ y ∧ y < s.cfg.height t) →
      pixWrite t x y v s = .raised (.pixelRange x y) s)

/-- 20_memory.md R58: 0x00 at every offset of the surface, every byte of every other surface as before, nothing else changed. -/
def Obligations.BulkClearZeroesSurface : Prop :=
  ∀ (s : State) (t : Nat), s.BufsOk → t < s.cfg.nsurf →
    (∀ o, o < s.cfg.width t * s.cfg.height t * 2 → xferRead (s.bulkClear t) t o = some 0) ∧
    (∀ u o, u ≠ t → xferRead (s.bulkClear t) u o = xferRead s u o) ∧
    s.bulkClear t = { s with bufs := (s.bulkClear t).bufs } ∧ (s.bulkClear t).BufsOk

/-- 20_memory.md R62: for every legal surface and offset the byte `BUF[t][o]`, for any other none; it does not depend on the fault
record, on `OUT` or on the command port. -/
def Obligations.TransferPortShowsBuffer : Prop :=
  ∀ (s : State) (t o : Nat),
    ((t < s.cfg.nsurf ∧ o < s.cfg.width t * s.cfg.height t * 2) → xferRead s t o = some (s.readByte t o)) ∧
    (¬ (t < s.cfg.nsurf ∧ o < s.cfg.width t * s.cfg.height t * 2) → xferRead s t o = none) ∧
    ∀ s' : State, s'.cfg = s.cfg → s'.bufs = s.bufs → xferRead s' t o = xferRead s t o

/-- The model's own (log entry 5; 10_state.md R26): a canonical buffer is the only list that reads as it does, so equal contents are
equal data. -/
def Obligations.EqualContentsAreEqualData : Prop :=
  ∀ (init : List Byte) (len : Nat) (m m' : Memory), Memory.wf init len m = true → Memory.wf init len m' = true →
    (∀ o, Memory.read init m o = Memory.read init m' o) → m = m'

/-! ### Pixel commands -/

/-- 40_drawtarget.md R120, 41_renderer_pixel.md R151: on a ready surface and in range, `DT.GETPIXEL` answers 0x00RRGGBB and `R.GETPIXEL`
`ARGB_ALPHA_OUT` ++ R ++ G ++ B of the decoded pixel; no state changes but the response. -/
def Obligations.GetPixelReturnsColour : Prop :=
  ∀ (s : State) (t : Byte) (x y : Word), s.Ready t → inRange s.cfg t.toNat x.toInt y.toInt = true →
    ∃ c : Color, c = dec565 (s.readPixel t.toNat (pixelOffset s.cfg t.toNat x.toInt y.toInt)) ∧
      exec (.dtGetPixel t (.fields ⟨x, y⟩)) s =
        .next { s with resp := s.resp ++ [⟨0, 0#8 ++ c.r ++ c.g ++ c.b⟩] } ∧
      exec (.rGetPixel t (.fields ⟨x, y⟩)) s =
        .next { s with resp := s.resp ++ [⟨0, s.cfg.alphaOut ++ c.r ++ c.g ++ c.b⟩] }

/-- 40_drawtarget.md R121, 41_renderer_pixel.md R152: on a ready surface and in range, both commands answer OK, exactly the two bytes of
the pixel change, to the encoding of bits 23:0 of the colour operand, and everything else is as before. -/
def Obligations.SetPixelWritesPixel : Prop :=
  ∀ (s : State) (t : Byte) (x y color : Word) (i : Instr),
    (i = .dtSetPixel t (.fields ⟨x, y, color⟩) ∨ i = .rSetPixel t (.fields ⟨x, y, color⟩)) →
    s.Ready t → s.BufsOk → inRange s.cfg t.toNat x.toInt y.toInt = true →
    ∃ s', exec i s = .next s' ∧ s'.resp = s.resp ++ [⟨0, 0⟩] ∧ s.SameButBufs s' ∧
      PaintsOnly t.toNat
        (enc565 ⟨color.extractLsb' 16 8, color.extractLsb' 8 8, color.extractLsb' 0 8⟩)
        (fun px py => px = x.toInt ∧ py = y.toInt) s s'

/-- 60_exceptions.md R266, R269 for the four pixel commands: out of range, no byte of any buffer changes, the fault record holds
FCODE 5, `low32(x)`, `low32(y)` and the command's header, and the response is (5, 0). -/
def Obligations.PixelCommandsFaultOutOfRange : Prop :=
  ∀ (s : State) (t : Byte) (x y color : Word) (i : Instr),
    (i = .dtGetPixel t (.fields ⟨x, y⟩) ∨ i = .rGetPixel t (.fields ⟨x, y⟩) ∨
      i = .dtSetPixel t (.fields ⟨x, y, color⟩) ∨ i = .rSetPixel t (.fields ⟨x, y, color⟩)) →
    s.Ready t → inRange s.cfg t.toNat x.toInt y.toInt = false →
    ∃ s', exec i s = .next s' ∧ s.FaultedWith s' 5 x y i.header ∧ s'.bufs = s.bufs

/-- 40_drawtarget.md R122, 41_renderer_pixel.md R150: `R.CLEAR`, and `DT.CLEAR` with a colour whose three channels are 0 (bits 31:24
ignored), answer OK and zero every byte of the surface; every other surface and everything else is as before. -/
def Obligations.ClearZeroesSurface : Prop :=
  ∀ (s : State) (t : Byte) (color : Word) (i : Instr), color &&& 0x00FFFFFF = 0 →
    (i = .dtClear t (.fields color) ∨ i = .rClear t (.fields ())) → s.Ready t → s.BufsOk →
    ∃ s', exec i s = .next s' ∧ s'.resp = s.resp ++ [⟨0, 0⟩] ∧ s.SameButBufs s' ∧
      (∀ o, o < s.cfg.width t.toNat * s.cfg.height t.toNat * 2 → xferRead s' t.toNat o = some 0) ∧
      ∀ u o, u ≠ t.toNat → xferRead s' u o = xferRead s u o

/-- 40_drawtarget.md R124, R127, R128, 41_renderer_pixel.md R153 to R155: the size commands answer W, H and W·H·2 exactly (the
configuration's bounds make them fit the 32-bit VALUE), and nothing else changes. -/
def Obligations.SizeCommandsAnswerSizes : Prop :=
  ∀ (s : State) (t : Byte), s.Ready t → s.cfg.wf = true →
    ∃ w h n : Word, w.toNat = s.cfg.width t.toNat ∧ h.toNat = s.cfg.height t.toNat ∧
      n.toNat = s.cfg.width t.toNat * s.cfg.height t.toNat * 2 ∧
      exec (.dtWidth t (.fields ())) s = .next { s with resp := s.resp ++ [⟨0, w⟩] } ∧
      exec (.rWidth t (.fields ())) s = .next { s with resp := s.resp ++ [⟨0, w⟩] } ∧
      exec (.dtHeight t (.fields ())) s = .next { s with resp := s.resp ++ [⟨0, h⟩] } ∧
      exec (.rHeight t (.fields ())) s = .next { s with resp := s.resp ++ [⟨0, h⟩] } ∧
      exec (.dtGetData t (.fields ())) s = .next { s with resp := s.resp ++ [⟨0, n⟩] } ∧
      exec (.rGetBitmap t (.fields ())) s = .next { s with resp := s.resp ++ [⟨0, n⟩] }

/-- 40_drawtarget.md R125, 41_renderer_pixel.md R156: each flush appends its one event to `OUT`, the handle unread, and changes nothing
else but the response. -/
def Obligations.FlushAppendsOneEvent : Prop :=
  ∀ (s : State) (t : Byte) (handle : Word), s.Ready t →
    exec (.dtFlush t (.fields ())) s =
      .next { s with out := s.out ++ [.dtFlush t], resp := s.resp ++ [⟨0, 0⟩] } ∧
    exec (.rFlush t (.fields handle)) s =
      .next { s with out := s.out ++ [.rFlush t handle], resp := s.resp ++ [⟨0, 0⟩] }

/-- 40_drawtarget.md R126: `DT.DISPOSE` changes nothing at all, not even `OUT`, and answers (0, 0); its packet is 0x00000006 for
surface 0. So every later command behaves as if it had not been issued. -/
def Obligations.DisposeChangesNothing : Prop :=
  (∀ (s : State) (t : Byte), s.Ready t →
    exec (.dtDispose t (.fields ())) s = .next { s with resp := s.resp ++ [⟨0, 0⟩] }) ∧
  encode (.dtDispose 0 (.fields ())) = [0x00000006]

/-! ### Lines -/

/-- The closed form of 42_line.md R172, which the spec derives from R171's procedure (the loop of the model is a count: DEDUCED, log
entry 12): the line rasterizer plots exactly the M + 1 pixels of the closed form, in order, on every state and whether or
not a pixel is out of range; the first is the first endpoint, the last the second; the major coordinate moves one unit a
pixel. -/
def Obligations.LinePlotsClosedForm : Prop :=
  ∀ (t : Nat) (v : Pixel) (x0 y0 x1 y1 : Int) (s : State),
    line t v x0 y0 x1 y1 s = plotAll t v (linePixels x0 y0 x1 y1) s ∧
    (linePixels x0 y0 x1 y1).length = max (x1 - x0).natAbs (y1 - y0).natAbs + 1 ∧
    (linePixels x0 y0 x1 y1).head? = some (x0, y0) ∧
    (linePixels x0 y0 x1 y1).getLast? = some (x1, y1) ∧
    ∀ k, k < max (x1 - x0).natAbs (y1 - y0).natAbs →
      if (x1 - x0).natAbs > (y1 - y0).natAbs then
        (linePixel x0 y0 x1 y1 (k + 1)).1 = (linePixel x0 y0 x1 y1 k).1 + (x1 - x0).sign
      else (linePixel x0 y0 x1 y1 (k + 1)).2 = (linePixel x0 y0 x1 y1 k).2 + (y1 - y0).sign

/-- 42_line.md R170, R175: with thickness 1 and both endpoints on a ready surface `R.DRAWLINE` answers OK; the pixels of the line hold
the encoded colour, and every other byte and everything else is as before. -/
def Obligations.DrawLinePaintsLine : Prop :=
  ∀ (s : State) (t : Byte) (o : LineOps), s.Ready t → s.BufsOk → o.thickness = 1 →
    inRange s.cfg t.toNat o.x0.toInt o.y0.toInt = true → inRange s.cfg t.toNat o.x1.toInt o.y1.toInt = true →
    ∃ s', exec (.rDrawLine t (.fields o)) s = .next s' ∧ s'.resp = s.resp ++ [⟨0, 0⟩] ∧ s.SameButBufs s' ∧
      PaintsOnly t.toNat
        (enc565 ⟨o.color.extractLsb' 16 8, o.color.extractLsb' 8 8, o.color.extractLsb' 0 8⟩)
        (fun px py => (px, py) ∈ linePixels o.x0.toInt o.y0.toInt o.x1.toInt o.y1.toInt) s s'

/-- 42_line.md R175: if pixel k of the line is the first out of range, the pixels before it are drawn, no other byte changes, and the
fault record names pixel k. With k = 0 nothing is written. -/
def Obligations.DrawLineStopsAtFirstOutside : Prop :=
  ∀ (s : State) (t : Byte) (o : LineOps) (k : Nat), s.Ready t → s.BufsOk → o.thickness = 1 →
    k ≤ lineMajor o.x0.toInt o.y0.toInt o.x1.toInt o.y1.toInt →
    (∀ j, j < k → inRange s.cfg t.toNat (lineOpsPixel o j).1 (lineOpsPixel o j).2 = true) →
    inRange s.cfg t.toNat (lineOpsPixel o k).1 (lineOpsPixel o k).2 = false →
    ∃ s', exec (.rDrawLine t (.fields o)) s = .next s' ∧
      s.FaultedWith s' 5 (BitVec.ofInt 32 (lineOpsPixel o k).1) (BitVec.ofInt 32 (lineOpsPixel o k).2)
        (Instr.header (.rDrawLine t (.fields o))) ∧
      PaintsOnly t.toNat
        (enc565 ⟨o.color.extractLsb' 16 8, o.color.extractLsb' 8 8, o.color.extractLsb' 0 8⟩)
        (fun px py => ∃ j, j < k ∧ (px, py) = lineOpsPixel o j) s s'

/-! ### Rectangles -/

/-- 43_rectangle_ellipse.md R190, R191: thickness 1, opacity `OPAQUE`, width and height at least 1 and the block inside a ready surface:
`R.DRAWRECT` answers OK, the border pixels hold the encoded colour, and the interior, every other byte and everything else is
as before. -/
def Obligations.DrawRectPaintsBorder : Prop :=
  ∀ (s : State) (t : Byte) (o : RectOps), s.Ready t → s.BufsOk → o.thickness = 1 → o.opacity = s.cfg.fullOpacity →
    1 ≤ o.width.toInt → 1 ≤ o.height.toInt → 0 ≤ o.x.toInt → 0 ≤ o.y.toInt →
    o.x.toInt + o.width.toInt ≤ s.cfg.width t.toNat → o.y.toInt + o.height.toInt ≤ s.cfg.height t.toNat →
    ∃ s', exec (.rDrawRect t (.fields o)) s = .next s' ∧ s'.resp = s.resp ++ [⟨0, 0⟩] ∧ s.SameButBufs s' ∧
      PaintsOnly t.toNat
        (enc565 ⟨o.color.extractLsb' 16 8, o.color.extractLsb' 8 8, o.color.extractLsb' 0 8⟩)
        (RectBorder o.x.toInt o.y.toInt o.width.toInt o.height.toInt) s s'

/-- 43_rectangle_ellipse.md R192: on a ready surface the parameter tests come first (`Unsupported`, 1); then a negative or zero width or
height is answered (0, 0) with no write, whatever x and y are. That a ZERO size draws nothing is a choice (DESIGN CHOICE, log entry
13: U4, the spec's decision D18), and the order of the tests is the spec's decision D19. -/
def Obligations.EmptyRectDrawsNothing : Prop :=
  ∀ (s : State) (t : Byte) (o : RectOps), s.Ready t → (o.width.toInt ≤ 0 ∨ o.height.toInt ≤ 0) →
    ((o.thickness ≠ 1 ∨ o.opacity ≠ s.cfg.fullOpacity) →
      exec (.rDrawRect t (.fields o)) s = .next { s with resp := s.resp ++ [⟨1, 0⟩] }) ∧
    ((o.thickness = 1 ∧ o.opacity = s.cfg.fullOpacity) →
      exec (.rDrawRect t (.fields o)) s = .next { s with resp := s.resp ++ [⟨0, 0⟩] })

/-- 43_rectangle_ellipse.md R190, R193: a non-empty rectangle that is not wholly on the surface is not clipped: it faults at the FIRST
pixel out of range in the order top row, bottom row, left column, right column; the pixels before it hold the encoded colour, no
other byte changes, and the fault record names that pixel, which is a border pixel. -/
def Obligations.DrawRectOffSurfaceFaults : Prop :=
  ∀ (s : State) (t : Byte) (o : RectOps), s.Ready t → s.BufsOk → o.thickness = 1 → o.opacity = s.cfg.fullOpacity →
    1 ≤ o.width.toInt → 1 ≤ o.height.toInt →
    ¬ (0 ≤ o.x.toInt ∧ 0 ≤ o.y.toInt ∧ o.x.toInt + o.width.toInt ≤ s.cfg.width t.toNat ∧
      o.y.toInt + o.height.toInt ≤ s.cfg.height t.toNat) →
    ∃ s' k p, exec (.rDrawRect t (.fields o)) s = .next s' ∧
      FirstOutside s.cfg t.toNat (rectPixels o.x.toInt o.y.toInt o.width.toInt o.height.toInt) k p ∧
      RectBorder o.x.toInt o.y.toInt o.width.toInt o.height.toInt p.1 p.2 ∧
      s.FaultedWith s' 5 (BitVec.ofInt 32 p.1) (BitVec.ofInt 32 p.2) (Instr.header (.rDrawRect t (.fields o))) ∧
      PaintsOnly t.toNat
        (enc565 ⟨o.color.extractLsb' 16 8, o.color.extractLsb' 8 8, o.color.extractLsb' 0 8⟩)
        (fun px py => (px, py) ∈ (rectPixels o.x.toInt o.y.toInt o.width.toInt o.height.toInt).take k) s s'

/-! ### Text -/

/-- 44_text.md R205 to R209, R213: a text with text and font present, the built-in family and no codepoint above 126, whose LIT pixels are
all on a ready surface, is drawn and answered OK: the lit pixels, by the layout of R209 and the glyph order of R208, hold the encoded
colour; unlit pixels, every other byte and everything else is as before. With scale ≤ 0 no pixel is lit. -/
def Obligations.DrawTextPaintsLitPixels : Prop :=
  ∀ (s : State) (t : Byte) (o : TextOps), s.Ready t → s.BufsOk → o.tflags = 3 → o.family = 0 →
    (∀ p ∈ o.text, p.toNat ≤ 126) →
    (∀ px py, TextLights s.cfg o.text o.x.toInt o.y.toInt (o.size.toInt / 8) px py →
      inRange s.cfg t.toNat px py = true) →
    ∃ s', exec (.rDrawText t (.fields o)) s = .next s' ∧ s'.resp = s.resp ++ [⟨0, 0⟩] ∧ s.SameButBufs s' ∧
      PaintsOnly t.toNat
        (enc565 ⟨o.color.extractLsb' 16 8, o.color.extractLsb' 8 8, o.color.extractLsb' 0 8⟩)
        (TextLights s.cfg o.text o.x.toInt o.y.toInt (o.size.toInt / 8)) s s'

/-- 44_text.md R206: with a size below 8 (scale ≤ 0, negative sizes too) nothing is drawn and the answer is OK, whatever text of
codepoints up to 126 is given and wherever it stands. -/
def Obligations.SmallFontDrawsNothing : Prop :=
  ∀ (s : State) (t : Byte) (o : TextOps), s.Ready t → o.tflags = 3 → o.family = 0 → o.size.toInt < 8 →
    (∀ p ∈ o.text, p.toNat ≤ 126) →
    exec (.rDrawText t (.fields o)) s = .next { s with resp := s.resp ++ [⟨0, 0⟩] }

/-- 44_text.md R211, 60_exceptions.md R267, R269: character i is the first above 126 and everything lit before it is on the surface: the
characters before it are drawn, it and those after are not, and the fault record holds FCODE 6, the codepoint, the index and the
header. Also when scale ≤ 0. -/
def Obligations.GlyphRangeFaultNamesCharacter : Prop :=
  ∀ (s : State) (t : Byte) (o : TextOps) (before after : List Word) (p : Word), s.Ready t → s.BufsOk →
    o.tflags = 3 → o.family = 0 → o.text = before ++ p :: after → 126 < p.toNat → (∀ q ∈ before, q.toNat ≤ 126) →
    (∀ px py, TextLights s.cfg before o.x.toInt o.y.toInt (o.size.toInt / 8) px py →
      inRange s.cfg t.toNat px py = true) →
    ∃ s', exec (.rDrawText t (.fields o)) s = .next s' ∧
      s.FaultedWith s' 6 p (BitVec.ofNat 32 before.length) (Instr.header (.rDrawText t (.fields o))) ∧
      PaintsOnly t.toNat
        (enc565 ⟨o.color.extractLsb' 16 8, o.color.extractLsb' 8 8, o.color.extractLsb' 0 8⟩)
        (TextLights s.cfg before o.x.toInt o.y.toInt (o.size.toInt / 8)) s s'

/-- 44_text.md R213, with R205 and R208 and 60_exceptions.md R272 item 5: if the characters of `before`, none above 126, light some
pixel out of range, the command faults at the FIRST such pixel in the order of the characters and of R208's loops, whatever
characters come after them (one above 126 too); the pixels before it hold the encoded colour, no other byte changes, and the fault
record names that pixel. -/
def Obligations.DrawTextOffSurfaceFaults : Prop :=
  ∀ (s : State) (t : Byte) (o : TextOps) (before after : List Word), s.Ready t → s.BufsOk → o.tflags = 3 → o.family = 0 →
    o.text = before ++ after → (∀ q ∈ before, q.toNat ≤ 126) →
    (∃ px py, TextLights s.cfg before o.x.toInt o.y.toInt (o.size.toInt / 8) px py ∧
      inRange s.cfg t.toNat px py = false) →
    ∃ s' k p, exec (.rDrawText t (.fields o)) s = .next s' ∧
      FirstOutside s.cfg t.toNat (textPixels s.cfg before o.x.toInt o.y.toInt (o.size.toInt / 8)) k p ∧
      TextLights s.cfg before o.x.toInt o.y.toInt (o.size.toInt / 8) p.1 p.2 ∧
      s.FaultedWith s' 5 (BitVec.ofInt 32 p.1) (BitVec.ofInt 32 p.2) (Instr.header (.rDrawText t (.fields o))) ∧
      PaintsOnly t.toNat
        (enc565 ⟨o.color.extractLsb' 16 8, o.color.extractLsb' 8 8, o.color.extractLsb' 0 8⟩)
        (fun px py => (px, py) ∈ (textPixels s.cfg before o.x.toInt o.y.toInt (o.size.toInt / 8)).take k) s s'

/-- 43_rectangle_ellipse.md R195, 44_text.md R215: on a ready surface `R.DRAWELLIPSE` and `R.DRAWTEXTINRECT` answer `NotImplemented` (3, 0)
whatever their operands, and change nothing else. -/
def Obligations.EllipseAndRectTextNotImplemented : Prop :=
  ∀ (s : State) (t : Byte) (ws : List Word), s.Ready t →
    exec (.rDrawEllipse t ws) s = .next { s with resp := s.resp ++ [⟨3, 0⟩] } ∧
    exec (.rDrawTextInRect t ws) s = .next { s with resp := s.resp ++ [⟨3, 0⟩] }

/-! ### Blit -/

/-- 45_blit.md R235 to R239: an accepted blit onto a surface at least as wide and as high as the source answers OK; every pixel (x, y) of
the source is then at (x, y) of the target, wherever xDst and yDst point and also when source and target are the same surface;
every other byte and everything else is as before. -/
def Obligations.BlitCopiesWholeSource : Prop :=
  ∀ (s : State) (t : Byte) (o : BlitOps), s.Ready t → s.BufsOk → o.src.toNat < s.cfg.nsurf →
    ¬ UnsupportedIn s.cfg (.rStretchImage t (.fields o)) →
    s.cfg.width o.src.toNat ≤ s.cfg.width t.toNat → s.cfg.height o.src.toNat ≤ s.cfg.height t.toNat →
    ∃ s', exec (.rStretchImage t (.fields o)) s = .next s' ∧ s'.resp = s.resp ++ [⟨0, 0⟩] ∧ s.SameButBufs s' ∧
      (∀ x y : Nat, x < s.cfg.width o.src.toNat → y < s.cfg.height o.src.toNat →
        s'.readPixel t.toNat (pixelOffset s.cfg t.toNat x y) =
          s.readPixel o.src.toNat (pixelOffset s.cfg o.src.toNat x y)) ∧
      ∀ u b, (∀ x y : Nat, x < s.cfg.width o.src.toNat → y < s.cfg.height o.src.toNat →
        ¬ ByteOfPixel s.cfg t.toNat x y u b) → s'.readByte u b = s.readByte u b

/-- 45_blit.md R236: after an accepted blit onto a target of the same size as the source, the two buffers are equal byte for byte. -/
def Obligations.SameSizeBlitMakesBuffersEqual : Prop :=
  ∀ (s : State) (t : Byte) (o : BlitOps), s.Ready t → s.BufsOk → o.src.toNat < s.cfg.nsurf →
    ¬ UnsupportedIn s.cfg (.rStretchImage t (.fields o)) →
    s.cfg.width o.src.toNat = s.cfg.width t.toNat → s.cfg.height o.src.toNat = s.cfg.height t.toNat →
    ∃ s', exec (.rStretchImage t (.fields o)) s = .next s' ∧
      ∀ b, xferRead s' t.toNat b = xferRead s' o.src.toNat b

/-- 45_blit.md R238: onto a target that is narrower, an accepted blit copies the first W[t] pixels of row 0 and faults at (W[t], 0); onto
one that is not narrower but lower, it copies the first H[t] rows and faults at (0, H[t]); every other byte is as before. -/
def Obligations.BlitOntoSmallerTargetFaults : Prop :=
  ∀ (s : State) (t : Byte) (o : BlitOps) (w h : Nat) (px py : Nat), s.Ready t → s.BufsOk → s.cfg.wf = true →
    o.src.toNat < s.cfg.nsurf → ¬ UnsupportedIn s.cfg (.rStretchImage t (.fields o)) →
    (s.cfg.width t.toNat < s.cfg.width o.src.toNat ∧ w = s.cfg.width t.toNat ∧ h = 1 ∧ px = w ∧ py = 0 ∨
      s.cfg.width o.src.toNat ≤ s.cfg.width t.toNat ∧ s.cfg.height t.toNat < s.cfg.height o.src.toNat ∧
        w = s.cfg.width o.src.toNat ∧ h = s.cfg.height t.toNat ∧ px = 0 ∧ py = h) →
    ∃ s', exec (.rStretchImage t (.fields o)) s = .next s' ∧
      s.FaultedWith s' 5 (BitVec.ofNat 32 px) (BitVec.ofNat 32 py) (Instr.header (.rStretchImage t (.fields o))) ∧
      (∀ x y : Nat, x < w → y < h →
        s'.readPixel t.toNat (pixelOffset s.cfg t.toNat x y) =
          s.readPixel o.src.toNat (pixelOffset s.cfg o.src.toNat x y)) ∧
      ∀ u b, (∀ x y : Nat, x < w → y < h → ¬ ByteOfPixel s.cfg t.toNat x y u b) → s'.readByte u b = s.readByte u b

/-! ### The system command -/

/-- 46_system.md R250, 10_state.md R23, 30_encoding.md R89 step 1: `SYS.RDREG n` answers the control register for n ≤ 4, in every state, also
when FAULT = 1 and whatever SURF is, and changes nothing else; a register number above 4 or a wrong LEN is `IllegalCommand`. -/
def Obligations.RdRegAnswersControlRegister : Prop :=
  ∀ (s : State) (t : Byte) (n : Word) (ws : List Word),
    (∀ v, [s.status, s.finfo0, s.finfo1, s.fcmd, BitVec.ofNat 32 s.cfg.surfaces.length][n.toNat]? = some v →
      exec (.sysRdReg t (.fields n)) s = .next { s with resp := s.resp ++ [⟨0, v⟩] }) ∧
    (4 < n.toNat → exec (.sysRdReg t (.fields n)) s = .next { s with resp := s.resp ++ [⟨4, 0⟩] }) ∧
    exec (.sysRdReg t (.otherLen ws)) s = .next { s with resp := s.resp ++ [⟨4, 0⟩] }

/-! ### Causes and order of the error codes -/

/-- 60_exceptions.md R268: while FAULT = 1 every command but `SYS.RDREG`, and every packet with a reserved opcode, is answered (7, 0) before
anything else is looked at, and changes nothing. -/
def Obligations.FaultedComesFirst : Prop :=
  ∀ s : State, s.status.getLsbD 0 = true →
    (∀ i : Instr, (∀ t o, i ≠ .sysRdReg t o) → exec i s = .next { s with resp := s.resp ++ [⟨7, 0⟩] }) ∧
    ∀ p rest e, splitPacket s.port = some (p, rest) → decodePacket p = .error e →
      step s = .next { s with port := rest, resp := s.resp ++ [⟨7, 0⟩] }

/-- 60_exceptions.md R265: on a machine that is not faulted (and for `SYS.RDREG` on any), a command is answered (4, 0) with no other change
exactly when its LEN, its SURF, its TFLAGS, its blit source or its register number is illegal, and a packet with a reserved opcode
always is. -/
def Obligations.IllegalCommandCauses : Prop :=
  ∀ s : State,
    (∀ i : Instr, (s.status.getLsbD 0 = false ∨ ∃ t o, i = .sysRdReg t o) →
      (exec i s = .next { s with resp := s.resp ++ [⟨4, 0⟩] } ↔ IllegalIn s.cfg i)) ∧
    ∀ p rest e, s.status.getLsbD 0 = false → splitPacket s.port = some (p, rest) → decodePacket p = .error e →
      step s = .next { s with port := rest, resp := s.resp ++ [⟨4, 0⟩] }

/-- 60_exceptions.md R262: past the checks of decoding and of absence, a command is answered (1, 0) with no other change exactly under the
conditions of R262's table. -/
def Obligations.UnsupportedCauses : Prop :=
  ∀ (s : State) (i : Instr), (∀ t o, i ≠ .sysRdReg t o) → s.status.getLsbD 0 = false → ¬ IllegalIn s.cfg i →
    (exec i s = .next { s with resp := s.resp ++ [⟨1, 0⟩] } ↔ UnsupportedIn s.cfg i)

/-- 60_exceptions.md R263: past the checks of decoding, a command is answered (2, 0) with no other change exactly when it is `R.DRAWTEXT` with
the text or the font absent, whatever its family and codepoints are. -/
def Obligations.InvalidArgumentCauses : Prop :=
  ∀ (s : State) (i : Instr), (∀ t o, i ≠ .sysRdReg t o) → s.status.getLsbD 0 = false → ¬ IllegalIn s.cfg i →
    (exec i s = .next { s with resp := s.resp ++ [⟨2, 0⟩] } ↔ InvalidArgumentIn i)

/-- 60_exceptions.md R264: past the checks of decoding, a command is answered (3, 0) with no other change exactly when it is `R.DRAWELLIPSE` or
`R.DRAWTEXTINRECT`, whatever the operands. -/
def Obligations.NotImplementedCauses : Prop :=
  ∀ (s : State) (i : Instr), (∀ t o, i ≠ .sysRdReg t o) → s.status.getLsbD 0 = false → ¬ IllegalIn s.cfg i →
    (exec i s = .next { s with resp := s.resp ++ [⟨3, 0⟩] } ↔
      ∃ t ws, i = .rDrawEllipse t ws ∨ i = .rDrawTextInRect t ws)

/-! ### Rules of the whole machine -/

/-- 30_encoding.md R86, 60_exceptions.md R261: every command, on every state, and every packet at the command port (a reserved opcode's
too) gets a next state with exactly one more response; its code is one of 0 to 7; VALUE is 0 with every code but 0, and for every
command that returns no value. What the nine commands that return one put in VALUE is in the statements about them. -/
def Obligations.ExactlyOneResponse : Prop :=
  (∀ (i : Instr) (s : State), ∃ s' r, exec i s = .next s' ∧ s'.resp = s.resp ++ [r] ∧ r.code.toNat ≤ 7 ∧
    (r.code ≠ 0 → r.value = 0) ∧ (¬ ReturnsValue i → r.value = 0)) ∧
  ∀ (s : State) (p : Packet) (rest : List Word), splitPacket s.port = some (p, rest) →
    ∃ s' r, step s = .next s' ∧ s'.port = rest ∧ s'.resp = s.resp ++ [r] ∧ r.code.toNat ≤ 7 ∧
      (r.code ≠ 0 → r.value = 0) ∧ ((∀ i, decodePacket p = .ok i → ¬ ReturnsValue i) → r.value = 0)

/-- 30_encoding.md R91, 46_system.md R251: a step always answers a next state; when a whole packet is at the command port it is consumed and
answered, else the state is as before. -/
def Obligations.StepAlwaysAnswers : Prop :=
  ∀ s : State, ∃ s', step s = .next s' ∧
    (splitPacket s.port = none → s' = s) ∧
    ∀ p rest, splitPacket s.port = some (p, rest) →
      s'.port = rest ∧ ∃ r, s'.resp = s.resp ++ [r]

/-- 60_exceptions.md R271: whatever the command, and whatever the packet at the command port, a response with an error code (1, 2, 3, 4
or 7) has VALUE 0 and means that the state is the state before, with that response; for a step, with exactly that packet taken from
the command port. -/
def Obligations.ErrorsChangeNothing : Prop :=
  (∀ (i : Instr) (s s' : State) (r : Response), exec i s = .next s' → s'.resp = s.resp ++ [r] →
    (r.code = 1 ∨ r.code = 2 ∨ r.code = 3 ∨ r.code = 4 ∨ r.code = 7) →
    r.value = 0 ∧ s' = { s with resp := s.resp ++ [r] }) ∧
  ∀ (s s' : State) (r : Response) (p : Packet) (rest : List Word), splitPacket s.port = some (p, rest) →
    step s = .next s' → s'.resp = s.resp ++ [r] →
    (r.code = 1 ∨ r.code = 2 ∨ r.code = 3 ∨ r.code = 4 ∨ r.code = 7) →
    r.value = 0 ∧ s' = { s with port := rest, resp := s.resp ++ [r] }

/-- 60_exceptions.md R269, 10_state.md R29: `cr[0]` to `cr[3]` change only by fault entry: after a command either they are as before, or the
response is (5, 0) or (6, 0), STATUS holds that code and FAULT = 1, FCMD is the command's header, and the machine was not faulted. -/
def Obligations.RecordChangesOnlyByFault : Prop :=
  ∀ (i : Instr) (s s' : State), exec i s = .next s' →
    (s'.status = s.status ∧ s'.finfo0 = s.finfo0 ∧ s'.finfo1 = s.finfo1 ∧ s'.fcmd = s.fcmd ∧
      s'.resp ≠ s.resp ++ [⟨5, 0⟩] ∧ s'.resp ≠ s.resp ++ [⟨6, 0⟩]) ∨
    (s.status.getLsbD 0 = false ∧ ∃ code, (code = 5 ∨ code = 6) ∧
      s.FaultedWith s' code s'.finfo0 s'.finfo1 i.header)

/-- 60_exceptions.md R270: FAULT stays 1: a step from a faulted state changes no buffer, no control register and no event; it only consumes a
packet and answers it. -/
def Obligations.FaultIsSticky : Prop :=
  ∀ s s' : State, s.status.getLsbD 0 = true → step s = .next s' →
    s'.status = s.status ∧ s'.finfo0 = s.finfo0 ∧ s'.finfo1 = s.finfo1 ∧ s'.fcmd = s.fcmd ∧
      s'.bufs = s.bufs ∧ s'.out = s.out ∧ s'.cfg = s.cfg

/-- 10_state.md R29 and R25, 45_blit.md R235 ("the source surface is only read"): a command changes no byte of a surface other than its own;
a command R29's table does not list changes no buffer; only the flushes change `OUT`; no command changes the configuration. -/
def Obligations.CommandsWriteOnlyTheirState : Prop :=
  ∀ (i : Instr) (s s' : State), exec i s = .next s' →
    (∀ u o, u ≠ i.surf.toNat → xferRead s' u o = xferRead s u o) ∧
    (¬ WritesBuffer i → s'.bufs = s.bufs) ∧ (¬ WritesOut i → s'.out = s.out) ∧ s'.cfg = s.cfg ∧ s'.port = s.port

/-- 10_state.md R27: no command reads `OUT`: with other events in it, every command does the same to everything else and appends the same
events. -/
def Obligations.OutIsNeverRead : Prop :=
  ∀ (i : Instr) (s s' : State) (events : List Event), exec i s = .next s' →
    ∃ new, s'.out = s.out ++ new ∧
      exec i { s with out := events } = .next { s' with out := events ++ new }

/-- 30_encoding.md R90, last sentence: the words and bits documented as ignored take any value and change nothing. -/
def Obligations.IgnoredOperandsChangeNothing : Prop :=
  ∀ (s : State) (t t' : Byte) (x y color color' n a b c d : Word) (ws ws' cps : List Word)
    (l : LineOps) (r : RectOps) (o : TextOps) (m : BlitOps),
    color.extractLsb' 0 24 = color'.extractLsb' 0 24 →
    exec (.dtSetPixel t (.fields ⟨x, y, color⟩)) s = exec (.dtSetPixel t (.fields ⟨x, y, color'⟩)) s ∧
    exec (.rSetPixel t (.fields ⟨x, y, color⟩)) s = exec (.rSetPixel t (.fields ⟨x, y, color'⟩)) s ∧
    exec (.dtClear t (.fields color)) s = exec (.dtClear t (.fields color')) s ∧
    exec (.rDrawLine t (.fields { l with color := color })) s =
      exec (.rDrawLine t (.fields { l with color := color' })) s ∧
    exec (.rDrawRect t (.fields { r with color := color, corner := a, gradient := b })) s =
      exec (.rDrawRect t (.fields { r with color := color', corner := c, gradient := d })) s ∧
    exec (.rDrawText t (.fields { o with color := color })) s =
      exec (.rDrawText t (.fields { o with color := color' })) s ∧
    exec (.rDrawEllipse t ws) s = exec (.rDrawEllipse t ws') s ∧
    exec (.rDrawTextInRect t ws) s = exec (.rDrawTextInRect t ws') s ∧
    exec (.sysRdReg t (.fields n)) s = exec (.sysRdReg t' (.fields n)) s ∧
    exec (.rStretchImage t (.fields { m with xDst := a, yDst := b })) s =
      exec (.rStretchImage t (.fields { m with xDst := c, yDst := d })) s ∧
    (o.tflags.getLsbD 1 = false → exec (.rDrawText t (.fields { o with family := a, size := b })) s =
      exec (.rDrawText t (.fields { o with family := c, size := d })) s) ∧
    (o.tflags.getLsbD 0 = false → exec (.rDrawText t (.fields { o with text := cps })) s =
      exec (.rDrawText t (.fields o)) s)

/-- 41_renderer_pixel.md R150, R155, R153, R154: the renderer's clear, raw buffer and sizes are the draw target's, on every state. -/
def Obligations.RendererIsItsDrawTarget : Prop :=
  ∀ (s : State) (t : Byte),
    exec (.rClear t (.fields ())) s = exec (.dtClear t (.fields 0)) s ∧
    exec (.rGetBitmap t (.fields ())) s = exec (.dtGetData t (.fields ())) s ∧
    exec (.rWidth t (.fields ())) s = exec (.dtWidth t (.fields ())) s ∧
    exec (.rHeight t (.fields ())) s = exec (.dtHeight t (.fields ())) s

/-! ### Reset and the invariant -/

/-- 70_reset_and_hazards.md R300 to R302, 10_state.md R29: whatever the state, after reset `cr[0]` to `cr[3]` are 0, `OUT` is empty, no packet is
half received, each buffer holds the new `INIT_BUF`, and every other parameter is unchanged. That reset is the operation
`State.assertReset` between steps, and that `resp` is empty after it, is the model's choice (DESIGN CHOICE, log entry 14). -/
def Obligations.ResetClearsFaultAndKeepsParameters : Prop :=
  ∀ (s : State) (inits : List (List Byte)) (s' : State), s' = s.assertReset inits →
    inits.length = s.cfg.nsurf → (∀ t init, inits[t]? = some init → init.length = s.cfg.bufLen t) →
    s'.status = 0 ∧ s'.finfo0 = 0 ∧ s'.finfo1 = 0 ∧ s'.fcmd = 0 ∧ s'.out = [] ∧ s'.port = [] ∧ s'.resp = [] ∧
      s'.cfg.nsurf = s.cfg.nsurf ∧ s'.cfg.glyphs = s.cfg.glyphs ∧ s'.cfg.fullOpacity = s.cfg.fullOpacity ∧
      s'.cfg.alphaOut = s.cfg.alphaOut ∧
      (∀ t, s'.cfg.width t = s.cfg.width t ∧ s'.cfg.height t = s.cfg.height t) ∧
      ∀ t o init b, inits[t]? = some init → init[o]? = some b → xferRead s' t o = some b

/-- The invariant holds after reset in every configuration that meets 00_scope.md R10. -/
def Obligations.InvariantAtReset : Prop :=
  (∀ c : Config, c.wf = true → (State.resetWith c).Inv) ∧ State.reset.Inv

/-- 10_state.md R23, R26, R29, 30_encoding.md R86: every step keeps the invariant: one canonical buffer per surface, inside its length; a legal
fault record (FCODE 5 or 6 with FAULT = 1 and reserved bits 0, FCMD the header of a command that can fault, on a surface that
exists; or all four registers at 0); legal responses; a legal configuration. -/
def Obligations.StepKeepsInvariant : Prop :=
  ∀ s s' : State, s.Inv → step s = .next s' → s'.Inv
end

