-- ==== Sys2Proof/Laws/Decode.lean ====
section
/-! SUPPORT. The fields of a header word, the parts of a packet, and how long a well-formed command's packet is. -/

namespace Sys2Proof

/-- Bit `i` of a header word, by field. -/
theorem getLsbD_headerWord (opc surf : Byte) (len i : Nat) :
    (headerWord opc surf len).getLsbD i =
      if i < 8 then opc.getLsbD i else if i - 8 < 8 then surf.getLsbD (i - 8)
      else (BitVec.ofNat 16 len).getLsbD (i - 8 - 8) := by
  have h1 := BitVec.getLsbD_append (x := BitVec.ofNat 16 len ++ surf) (y := opc) (i := i)
  have h2 := BitVec.getLsbD_append (x := BitVec.ofNat 16 len) (y := surf) (i := i - 8)
  rw [h2] at h1
  exact h1.trans (by by_cases h : i < 8 <;> by_cases h' : i - 8 < 8 <;> simp [h, h'])

@[simp] theorem headerOpc_headerWord (opc surf : Byte) (len : Nat) : headerOpc (headerWord opc surf len) = opc := by
  ext i hi
  simp only [headerOpc, BitVec.getElem_extractLsb', getLsbD_headerWord]
  rw [if_pos (by omega), Nat.zero_add, BitVec.getLsbD_eq_getElem]

@[simp] theorem headerSurf_headerWord (opc surf : Byte) (len : Nat) : headerSurf (headerWord opc surf len) = surf := by
  ext i hi
  simp only [headerSurf, BitVec.getElem_extractLsb', getLsbD_headerWord]
  rw [if_neg (by omega), if_pos (by omega), Nat.add_sub_cancel_left, BitVec.getLsbD_eq_getElem]

/-- LEN is 16 bits (30_encoding.md R81). -/
theorem headerLen_headerWord (opc surf : Byte) {len : Nat} (h : len ≤ maxLen) :
    headerLen (headerWord opc surf len) = len := by
  have : (headerWord opc surf len).extractLsb' 16 16 = BitVec.ofNat 16 len := by
    ext i hi
    simp only [BitVec.getElem_extractLsb', getLsbD_headerWord]
    rw [if_neg (by omega), if_neg (by omega), show 16 + i - 8 - 8 = i by omega, BitVec.getLsbD_eq_getElem]
  unfold headerLen
  unfold maxLen at h
  rw [this, BitVec.toNat_ofNat]
  omega

/-- A packet in front of other words is the packet the command port hands on (30_encoding.md R80). -/
theorem splitPacket_append (h : Word) (ops rest : List Word) (hl : headerLen h = ops.length) :
    splitPacket (h :: (ops ++ rest)) = some (⟨h, ops⟩, rest) := by
  simp [splitPacket, hl]

/-- What the command port can hand on: the words are the packet's followed by the rest, and the packet is whole. -/
theorem splitPacket_some {ws rest : List Word} {p : Packet} (h : splitPacket ws = some (p, rest)) :
    ws = p.header :: (p.ops ++ rest) ∧ headerLen p.header = p.ops.length := by
  cases ws with
  | nil => simp [splitPacket] at h
  | cons w ws =>
    simp only [splitPacket] at h
    split at h
    · simp at h
    · next hn =>
      simp only [Option.some.injEq, Prod.mk.injEq] at h
      obtain ⟨rfl, rfl⟩ := h
      refine ⟨by simp, ?_⟩
      simp only [List.length_take]
      omega

theorem Packed.length_le {α : Type} {n : Nat} {f : α → List Word} (hf : ∀ a, (f a).length ≤ maxLen) {o : Packed α}
    (h : o.wfExact n = true) : (o.words f).length ≤ maxLen := by
  cases o with
  | fields a => exact hf a
  | otherLen ws => simp [Packed.wfExact] at h; exact h.2

theorem Packed.length_le_text {o : Packed TextOps} (h : o.wfText = true) : (o.words TextOps.words).length ≤ maxLen := by
  cases o with
  | fields a => simp [Packed.wfText] at h; simp [Packed.words, TextOps.words]; omega
  | otherLen ws => simp [Packed.wfText] at h; simp [Packed.words, maxLen]; omega

/-- LEN of a well-formed command fits its 16 bits. -/
theorem Instr.length_le {i : Instr} (h : i.WellFormed) : i.operandWords.length ≤ maxLen := by
  cases i <;> simp only [Instr.WellFormed, Instr.wf] at h <;> simp only [Instr.operandWords]
  case rDrawText => exact Packed.length_le_text h
  case rDrawEllipse => simpa using h
  case rDrawTextInRect => simpa using h
  all_goals
    refine Packed.length_le (fun a => ?_) h
    simp [PointOps.words, PixelOps.words, LineOps.words, RectOps.words, BlitOps.words, maxLen]

end Sys2Proof
end

