-- ==== Sys2Proof/Laws/State.lean ====
section
/-! SUPPORT. One lemma per field per update of State, true by rfl, so that no later proof unfolds a record update. -/

namespace Sys2Proof.Machine

@[simp] theorem State.setBuf_cfg (s : State) (t : Nat) (m : Memory) : (s.setBuf t m).cfg = s.cfg := rfl
@[simp] theorem State.setBuf_bufs (s : State) (t : Nat) (m : Memory) : (s.setBuf t m).bufs = s.bufs.set t m := rfl
@[simp] theorem State.setBuf_status (s : State) (t : Nat) (m : Memory) : (s.setBuf t m).status = s.status := rfl
@[simp] theorem State.setBuf_finfo0 (s : State) (t : Nat) (m : Memory) : (s.setBuf t m).finfo0 = s.finfo0 := rfl
@[simp] theorem State.setBuf_finfo1 (s : State) (t : Nat) (m : Memory) : (s.setBuf t m).finfo1 = s.finfo1 := rfl
@[simp] theorem State.setBuf_fcmd (s : State) (t : Nat) (m : Memory) : (s.setBuf t m).fcmd = s.fcmd := rfl
@[simp] theorem State.setBuf_out (s : State) (t : Nat) (m : Memory) : (s.setBuf t m).out = s.out := rfl
@[simp] theorem State.setBuf_port (s : State) (t : Nat) (m : Memory) : (s.setBuf t m).port = s.port := rfl
@[simp] theorem State.setBuf_resp (s : State) (t : Nat) (m : Memory) : (s.setBuf t m).resp = s.resp := rfl

@[simp] theorem State.respond_cfg (s : State) (c : Code) (v : Word) : (s.respond c v).cfg = s.cfg := rfl
@[simp] theorem State.respond_bufs (s : State) (c : Code) (v : Word) : (s.respond c v).bufs = s.bufs := rfl
@[simp] theorem State.respond_status (s : State) (c : Code) (v : Word) : (s.respond c v).status = s.status := rfl
@[simp] theorem State.respond_finfo0 (s : State) (c : Code) (v : Word) : (s.respond c v).finfo0 = s.finfo0 := rfl
@[simp] theorem State.respond_finfo1 (s : State) (c : Code) (v : Word) : (s.respond c v).finfo1 = s.finfo1 := rfl
@[simp] theorem State.respond_fcmd (s : State) (c : Code) (v : Word) : (s.respond c v).fcmd = s.fcmd := rfl
@[simp] theorem State.respond_out (s : State) (c : Code) (v : Word) : (s.respond c v).out = s.out := rfl
@[simp] theorem State.respond_port (s : State) (c : Code) (v : Word) : (s.respond c v).port = s.port := rfl
@[simp] theorem State.respond_resp (s : State) (c : Code) (v : Word) : (s.respond c v).resp = s.resp ++ [⟨c.number, v⟩] := rfl

@[simp] theorem State.emit_cfg (s : State) (e : Event) : (s.emit e).cfg = s.cfg := rfl
@[simp] theorem State.emit_bufs (s : State) (e : Event) : (s.emit e).bufs = s.bufs := rfl
@[simp] theorem State.emit_status (s : State) (e : Event) : (s.emit e).status = s.status := rfl
@[simp] theorem State.emit_finfo0 (s : State) (e : Event) : (s.emit e).finfo0 = s.finfo0 := rfl
@[simp] theorem State.emit_finfo1 (s : State) (e : Event) : (s.emit e).finfo1 = s.finfo1 := rfl
@[simp] theorem State.emit_fcmd (s : State) (e : Event) : (s.emit e).fcmd = s.fcmd := rfl
@[simp] theorem State.emit_out (s : State) (e : Event) : (s.emit e).out = s.out ++ [e] := rfl
@[simp] theorem State.emit_port (s : State) (e : Event) : (s.emit e).port = s.port := rfl
@[simp] theorem State.emit_resp (s : State) (e : Event) : (s.emit e).resp = s.resp := rfl

@[simp] theorem State.consume_cfg (s : State) (ws : List Word) : (s.consume ws).cfg = s.cfg := rfl
@[simp] theorem State.consume_bufs (s : State) (ws : List Word) : (s.consume ws).bufs = s.bufs := rfl
@[simp] theorem State.consume_status (s : State) (ws : List Word) : (s.consume ws).status = s.status := rfl
@[simp] theorem State.consume_finfo0 (s : State) (ws : List Word) : (s.consume ws).finfo0 = s.finfo0 := rfl
@[simp] theorem State.consume_finfo1 (s : State) (ws : List Word) : (s.consume ws).finfo1 = s.finfo1 := rfl
@[simp] theorem State.consume_fcmd (s : State) (ws : List Word) : (s.consume ws).fcmd = s.fcmd := rfl
@[simp] theorem State.consume_out (s : State) (ws : List Word) : (s.consume ws).out = s.out := rfl
@[simp] theorem State.consume_port (s : State) (ws : List Word) : (s.consume ws).port = ws := rfl
@[simp] theorem State.consume_resp (s : State) (ws : List Word) : (s.consume ws).resp = s.resp := rfl

@[simp] theorem State.present_cfg (s : State) (ws : List Word) : (s.present ws).cfg = s.cfg := rfl
@[simp] theorem State.present_bufs (s : State) (ws : List Word) : (s.present ws).bufs = s.bufs := rfl
@[simp] theorem State.present_status (s : State) (ws : List Word) : (s.present ws).status = s.status := rfl
@[simp] theorem State.present_finfo0 (s : State) (ws : List Word) : (s.present ws).finfo0 = s.finfo0 := rfl
@[simp] theorem State.present_finfo1 (s : State) (ws : List Word) : (s.present ws).finfo1 = s.finfo1 := rfl
@[simp] theorem State.present_fcmd (s : State) (ws : List Word) : (s.present ws).fcmd = s.fcmd := rfl
@[simp] theorem State.present_out (s : State) (ws : List Word) : (s.present ws).out = s.out := rfl
@[simp] theorem State.present_port (s : State) (ws : List Word) : (s.present ws).port = s.port ++ ws := rfl
@[simp] theorem State.present_resp (s : State) (ws : List Word) : (s.present ws).resp = s.resp := rfl

@[simp] theorem State.placeNext_cfg (s : State) (ws : List Word) : (s.placeNext ws).cfg = s.cfg := rfl
@[simp] theorem State.placeNext_bufs (s : State) (ws : List Word) : (s.placeNext ws).bufs = s.bufs := rfl
@[simp] theorem State.placeNext_status (s : State) (ws : List Word) : (s.placeNext ws).status = s.status := rfl
@[simp] theorem State.placeNext_finfo0 (s : State) (ws : List Word) : (s.placeNext ws).finfo0 = s.finfo0 := rfl
@[simp] theorem State.placeNext_finfo1 (s : State) (ws : List Word) : (s.placeNext ws).finfo1 = s.finfo1 := rfl
@[simp] theorem State.placeNext_fcmd (s : State) (ws : List Word) : (s.placeNext ws).fcmd = s.fcmd := rfl
@[simp] theorem State.placeNext_out (s : State) (ws : List Word) : (s.placeNext ws).out = s.out := rfl
@[simp] theorem State.placeNext_port (s : State) (ws : List Word) : (s.placeNext ws).port = ws ++ s.port := rfl
@[simp] theorem State.placeNext_resp (s : State) (ws : List Word) : (s.placeNext ws).resp = s.resp := rfl

@[simp] theorem State.writeByte_cfg (s : State) (t off : Nat) (b : Byte) : (s.writeByte t off b).cfg = s.cfg := rfl
@[simp] theorem State.writeByte_bufs (s : State) (t off : Nat) (b : Byte) : (s.writeByte t off b).bufs = s.bufs.set t (Memory.write (s.initBuf t) (s.buf t) off b) := rfl
@[simp] theorem State.writeByte_status (s : State) (t off : Nat) (b : Byte) : (s.writeByte t off b).status = s.status := rfl
@[simp] theorem State.writeByte_finfo0 (s : State) (t off : Nat) (b : Byte) : (s.writeByte t off b).finfo0 = s.finfo0 := rfl
@[simp] theorem State.writeByte_finfo1 (s : State) (t off : Nat) (b : Byte) : (s.writeByte t off b).finfo1 = s.finfo1 := rfl
@[simp] theorem State.writeByte_fcmd (s : State) (t off : Nat) (b : Byte) : (s.writeByte t off b).fcmd = s.fcmd := rfl
@[simp] theorem State.writeByte_out (s : State) (t off : Nat) (b : Byte) : (s.writeByte t off b).out = s.out := rfl
@[simp] theorem State.writeByte_port (s : State) (t off : Nat) (b : Byte) : (s.writeByte t off b).port = s.port := rfl
@[simp] theorem State.writeByte_resp (s : State) (t off : Nat) (b : Byte) : (s.writeByte t off b).resp = s.resp := rfl

@[simp] theorem State.bulkClear_cfg (s : State) (t : Nat) : (s.bulkClear t).cfg = s.cfg := rfl
@[simp] theorem State.bulkClear_bufs (s : State) (t : Nat) : (s.bulkClear t).bufs = s.bufs.set t (Memory.zeros 0 ((s.initBuf t).take (s.cfg.bufLen t))) := rfl
@[simp] theorem State.bulkClear_status (s : State) (t : Nat) : (s.bulkClear t).status = s.status := rfl
@[simp] theorem State.bulkClear_finfo0 (s : State) (t : Nat) : (s.bulkClear t).finfo0 = s.finfo0 := rfl
@[simp] theorem State.bulkClear_finfo1 (s : State) (t : Nat) : (s.bulkClear t).finfo1 = s.finfo1 := rfl
@[simp] theorem State.bulkClear_fcmd (s : State) (t : Nat) : (s.bulkClear t).fcmd = s.fcmd := rfl
@[simp] theorem State.bulkClear_out (s : State) (t : Nat) : (s.bulkClear t).out = s.out := rfl
@[simp] theorem State.bulkClear_port (s : State) (t : Nat) : (s.bulkClear t).port = s.port := rfl
@[simp] theorem State.bulkClear_resp (s : State) (t : Nat) : (s.bulkClear t).resp = s.resp := rfl

@[simp] theorem State.writePixel_cfg (s : State) (t off : Nat) (v : Pixel) : (s.writePixel t off v).cfg = s.cfg := rfl
@[simp] theorem State.writePixel_status (s : State) (t off : Nat) (v : Pixel) : (s.writePixel t off v).status = s.status := rfl
@[simp] theorem State.writePixel_finfo0 (s : State) (t off : Nat) (v : Pixel) : (s.writePixel t off v).finfo0 = s.finfo0 := rfl
@[simp] theorem State.writePixel_finfo1 (s : State) (t off : Nat) (v : Pixel) : (s.writePixel t off v).finfo1 = s.finfo1 := rfl
@[simp] theorem State.writePixel_fcmd (s : State) (t off : Nat) (v : Pixel) : (s.writePixel t off v).fcmd = s.fcmd := rfl
@[simp] theorem State.writePixel_out (s : State) (t off : Nat) (v : Pixel) : (s.writePixel t off v).out = s.out := rfl
@[simp] theorem State.writePixel_port (s : State) (t off : Nat) (v : Pixel) : (s.writePixel t off v).port = s.port := rfl
@[simp] theorem State.writePixel_resp (s : State) (t off : Nat) (v : Pixel) : (s.writePixel t off v).resp = s.resp := rfl

@[simp] theorem takeFault_cfg (h : Word) (f : Raise) (s : State) : (takeFault h f s).cfg = s.cfg := rfl
@[simp] theorem takeFault_bufs (h : Word) (f : Raise) (s : State) : (takeFault h f s).bufs = s.bufs := rfl
@[simp] theorem takeFault_status (h : Word) (f : Raise) (s : State) : (takeFault h f s).status = faultStatus f.code.number := rfl
@[simp] theorem takeFault_finfo0 (h : Word) (f : Raise) (s : State) : (takeFault h f s).finfo0 = f.info0 := rfl
@[simp] theorem takeFault_finfo1 (h : Word) (f : Raise) (s : State) : (takeFault h f s).finfo1 = f.info1 := rfl
@[simp] theorem takeFault_fcmd (h : Word) (f : Raise) (s : State) : (takeFault h f s).fcmd = h := rfl
@[simp] theorem takeFault_out (h : Word) (f : Raise) (s : State) : (takeFault h f s).out = s.out := rfl
@[simp] theorem takeFault_port (h : Word) (f : Raise) (s : State) : (takeFault h f s).port = s.port := rfl
@[simp] theorem takeFault_resp (h : Word) (f : Raise) (s : State) : (takeFault h f s).resp = s.resp ++ [⟨f.code.number, 0⟩] := rfl

@[simp] theorem State.resetWith_cfg (c : Config) : (State.resetWith c).cfg = c := rfl
@[simp] theorem State.resetWith_bufs (c : Config) : (State.resetWith c).bufs = List.replicate c.nsurf [] := rfl
@[simp] theorem State.resetWith_status (c : Config) : (State.resetWith c).status = 0 := rfl
@[simp] theorem State.resetWith_finfo0 (c : Config) : (State.resetWith c).finfo0 = 0 := rfl
@[simp] theorem State.resetWith_finfo1 (c : Config) : (State.resetWith c).finfo1 = 0 := rfl
@[simp] theorem State.resetWith_fcmd (c : Config) : (State.resetWith c).fcmd = 0 := rfl
@[simp] theorem State.resetWith_out (c : Config) : (State.resetWith c).out = [] := rfl
@[simp] theorem State.resetWith_port (c : Config) : (State.resetWith c).port = [] := rfl
@[simp] theorem State.resetWith_resp (c : Config) : (State.resetWith c).resp = [] := rfl

/-! ### Reading through the updates that touch no buffer -/

@[simp] theorem State.respond_buf (s : State) (c : Code) (v : Word) (u : Nat) : (s.respond c v).buf u = s.buf u := rfl
@[simp] theorem State.respond_readByte (s : State) (c : Code) (v : Word) (u o : Nat) : (s.respond c v).readByte u o = s.readByte u o := rfl
@[simp] theorem State.respond_xferRead (s : State) (c : Code) (v : Word) (u o : Nat) : xferRead (s.respond c v) u o = xferRead s u o := rfl
@[simp] theorem State.emit_buf (s : State) (e : Event) (u : Nat) : (s.emit e).buf u = s.buf u := rfl
@[simp] theorem State.emit_readByte (s : State) (e : Event) (u o : Nat) : (s.emit e).readByte u o = s.readByte u o := rfl
@[simp] theorem State.emit_xferRead (s : State) (e : Event) (u o : Nat) : xferRead (s.emit e) u o = xferRead s u o := rfl
@[simp] theorem State.consume_buf (s : State) (ws : List Word) (u : Nat) : (s.consume ws).buf u = s.buf u := rfl
@[simp] theorem State.consume_readByte (s : State) (ws : List Word) (u o : Nat) : (s.consume ws).readByte u o = s.readByte u o := rfl
@[simp] theorem State.consume_xferRead (s : State) (ws : List Word) (u o : Nat) : xferRead (s.consume ws) u o = xferRead s u o := rfl
@[simp] theorem State.present_buf (s : State) (ws : List Word) (u : Nat) : (s.present ws).buf u = s.buf u := rfl
@[simp] theorem State.present_readByte (s : State) (ws : List Word) (u o : Nat) : (s.present ws).readByte u o = s.readByte u o := rfl
@[simp] theorem State.present_xferRead (s : State) (ws : List Word) (u o : Nat) : xferRead (s.present ws) u o = xferRead s u o := rfl
@[simp] theorem State.placeNext_buf (s : State) (ws : List Word) (u : Nat) : (s.placeNext ws).buf u = s.buf u := rfl
@[simp] theorem State.placeNext_readByte (s : State) (ws : List Word) (u o : Nat) : (s.placeNext ws).readByte u o = s.readByte u o := rfl
@[simp] theorem State.placeNext_xferRead (s : State) (ws : List Word) (u o : Nat) : xferRead (s.placeNext ws) u o = xferRead s u o := rfl
@[simp] theorem takeFault_buf (h : Word) (f : Raise) (s : State) (u : Nat) : (takeFault h f s).buf u = s.buf u := rfl
@[simp] theorem takeFault_readByte (h : Word) (f : Raise) (s : State) (u o : Nat) : (takeFault h f s).readByte u o = s.readByte u o := rfl
@[simp] theorem takeFault_xferRead (h : Word) (f : Raise) (s : State) (u o : Nat) : xferRead (takeFault h f s) u o = xferRead s u o := rfl

end Sys2Proof.Machine
end

