-- ==== Sys2Proof/Laws/Memory.lean ====
section
/-! SUPPORT. A buffer as a canonical list: reading after writing, and every memory operation keeps the canonical form. -/

namespace Sys2Proof.Machine

/-- The canonical form, taken apart. -/
theorem Memory.wf_iff (init : List Byte) (len : Nat) (m : Memory) :
    Memory.wf init len m = true ↔
      m.Pairwise (fun c d => c.1 < d.1) ∧ ∀ c ∈ m, c.1 < len ∧ c.2 ≠ Memory.unlisted init c.1 := by
  simp [Memory.wf, Memory.rising]

@[simp] theorem Memory.wf_nil (init : List Byte) (len : Nat) : Memory.wf init len [] = true := by
  simp [Memory.wf_iff]

@[simp] theorem Memory.read_nil (init : List Byte) (a : Nat) :
    Memory.read init [] a = Memory.unlisted init a := rfl

@[simp] theorem Memory.read_cons (init : List Byte) (k : Nat) (b : Byte) (m : Memory) (a : Nat) :
    Memory.read init ((k, b) :: m) a = if k = a then b else Memory.read init m a := rfl

/-- An offset no entry names reads as the unlisted byte. -/
theorem Memory.read_unlisted (init : List Byte) (m : Memory) (a : Nat) (h : ∀ c ∈ m, c.1 ≠ a) :
    Memory.read init m a = Memory.unlisted init a := by
  induction m with
  | nil => rfl
  | cons c m ih =>
    obtain ⟨k, b⟩ := c
    have hk : k ≠ a := h (k, b) (by simp)
    simp [hk, ih (fun c hc => h c (by simp [hc]))]

theorem Memory.read_put (init : List Byte) (a : Nat) (b : Byte) (m : Memory) (h : ∀ c ∈ m, a < c.1)
    (a' : Nat) :
    Memory.read init (Memory.put init a b m) a' = if a' = a then b else Memory.read init m a' := by
  unfold Memory.put
  by_cases hb : b = Memory.unlisted init a
  · by_cases ha : a' = a
    · subst ha
      have := Memory.read_unlisted init m a' (fun c hc => by have := h c hc; omega)
      simp [hb, this]
    · simp [hb, ha]
  · by_cases ha : a' = a
    · simp [hb, ha]
    · simp [hb, ha, Ne.symm ha]

/-- Reading after writing a byte: the byte written, and elsewhere what was there. -/
theorem Memory.read_write (init : List Byte) (m : Memory) (a : Nat) (b : Byte)
    (h : m.Pairwise (fun c d => c.1 < d.1)) (a' : Nat) :
    Memory.read init (Memory.write init m a b) a' = if a' = a then b else Memory.read init m a' := by
  induction m with
  | nil => simpa [Memory.write] using Memory.read_put init a b [] (by simp) a'
  | cons c m ih =>
    obtain ⟨k, x⟩ := c
    rw [List.pairwise_cons] at h
    simp only [Memory.write]
    split
    · next hlt =>
      refine Memory.read_put init a b _ (fun d hd => ?_) a'
      rcases List.mem_cons.mp hd with rfl | hd
      · exact hlt
      · have := h.1 d hd; simp only at this; omega
    · split
      · next hk =>
        subst hk
        rw [Memory.read_put init a b m (fun d hd => h.1 d hd) a', Memory.read_cons]
        by_cases ha : a' = a
        · simp [ha]
        · simp [ha, Ne.symm ha]
      · next hk =>
        rw [Memory.read_cons, ih h.2, Memory.read_cons]
        by_cases ha : a' = a
        · subst ha; simp [Ne.symm hk]
        · simp [ha]

theorem Memory.mem_put {init : List Byte} {a : Nat} {b : Byte} {m : Memory} {c : Host.Cell}
    (h : c ∈ Memory.put init a b m) : c ∈ m ∨ (c = (a, b) ∧ b ≠ Memory.unlisted init a) := by
  unfold Memory.put at h
  split at h
  · exact .inl h
  · next hb =>
    rcases List.mem_cons.mp h with rfl | h
    · exact .inr ⟨rfl, hb⟩
    · exact .inl h

/-- What a write can list: an old entry, or the written byte where it is not the unlisted one. -/
theorem Memory.mem_write {init : List Byte} {m : Memory} {a : Nat} {b : Byte} {c : Host.Cell}
    (h : c ∈ Memory.write init m a b) : c ∈ m ∨ (c = (a, b) ∧ b ≠ Memory.unlisted init a) := by
  induction m with
  | nil => exact Memory.mem_put (by simpa [Memory.write] using h)
  | cons d m ih =>
    obtain ⟨k, x⟩ := d
    simp only [Memory.write] at h
    split at h
    · exact Memory.mem_put h
    · split at h
      · rcases Memory.mem_put h with h | h
        · exact .inl (by simp [h])
        · exact .inr h
      · rcases List.mem_cons.mp h with rfl | h
        · exact .inl (by simp)
        · rcases ih h with h | h
          · exact .inl (by simp [h])
          · exact .inr h

theorem Memory.pairwise_put {init : List Byte} {a : Nat} {b : Byte} {m : Memory}
    (h : m.Pairwise (fun c d => c.1 < d.1)) (ha : ∀ c ∈ m, a < c.1) :
    (Memory.put init a b m).Pairwise (fun c d => c.1 < d.1) := by
  unfold Memory.put
  split
  · exact h
  · exact List.pairwise_cons.mpr ⟨ha, h⟩

theorem Memory.pairwise_write {init : List Byte} {m : Memory} {a : Nat} {b : Byte}
    (h : m.Pairwise (fun c d => c.1 < d.1)) :
    (Memory.write init m a b).Pairwise (fun c d => c.1 < d.1) := by
  induction m with
  | nil => exact Memory.pairwise_put h (by simp)
  | cons d m ih =>
    obtain ⟨k, x⟩ := d
    have h' := List.pairwise_cons.mp h
    simp only [Memory.write]
    split
    · next hlt =>
      refine Memory.pairwise_put h (fun d hd => ?_)
      rcases List.mem_cons.mp hd with rfl | hd
      · exact hlt
      · have := h'.1 d hd; simp only at this; omega
    · split
      · next hk => subst hk; exact Memory.pairwise_put h'.2 (fun d hd => h'.1 d hd)
      · next hlt hk =>
        refine List.pairwise_cons.mpr ⟨fun d hd => ?_, ih h'.2⟩
        rcases Memory.mem_write hd with hd | ⟨rfl, -⟩
        · exact h'.1 d hd
        · simp only; omega

/-- A write inside the buffer keeps the canonical form. -/
theorem Memory.wf_write {init : List Byte} {len : Nat} {m : Memory} {a : Nat} {b : Byte}
    (h : Memory.wf init len m = true) (ha : a < len) : Memory.wf init len (Memory.write init m a b) = true := by
  rw [Memory.wf_iff] at h ⊢
  refine ⟨Memory.pairwise_write h.1, fun c hc => ?_⟩
  rcases Memory.mem_write hc with hc | ⟨rfl, hb⟩
  · exact h.2 c hc
  · exact ⟨ha, hb⟩

theorem Memory.mem_zeros {bs : List Byte} {off : Nat} {c : Host.Cell} (h : c ∈ Memory.zeros off bs) :
    off ≤ c.1 ∧ c.1 < off + bs.length ∧ c.2 = 0 ∧ bs.getD (c.1 - off) 0 ≠ 0 := by
  induction bs generalizing off with
  | nil => simp [Memory.zeros] at h
  | cons b bs ih =>
    have tail (h : c ∈ Memory.zeros (off + 1) bs) :
        off ≤ c.1 ∧ c.1 < off + (b :: bs).length ∧ c.2 = 0 ∧ (b :: bs).getD (c.1 - off) 0 ≠ 0 := by
      obtain ⟨h1, h2, h3, h4⟩ := ih h
      have e : c.1 - off = (c.1 - (off + 1)) + 1 := by omega
      refine ⟨by omega, by simp only [List.length_cons]; omega, h3, ?_⟩
      rw [e, List.getD_cons_succ]; exact h4
    simp only [Memory.zeros] at h
    split at h
    · exact tail h
    · next hb =>
      rcases List.mem_cons.mp h with rfl | h
      · exact ⟨by simp, by simp, rfl, by simpa using hb⟩
      · exact tail h

theorem Memory.pairwise_zeros (bs : List Byte) (off : Nat) :
    (Memory.zeros off bs).Pairwise (fun c d => c.1 < d.1) := by
  induction bs generalizing off with
  | nil => simp [Memory.zeros]
  | cons b bs ih =>
    simp only [Memory.zeros]
    split
    · exact ih _
    · exact List.pairwise_cons.mpr ⟨fun d hd => by have := (Memory.mem_zeros hd).1; simp only; omega, ih _⟩

/-- A cleared buffer is canonical. -/
theorem Memory.wf_zeros (init : List Byte) (len : Nat) :
    Memory.wf init len (Memory.zeros 0 (init.take len)) = true := by
  rw [Memory.wf_iff]
  refine ⟨Memory.pairwise_zeros _ _, fun c hc => ?_⟩
  obtain ⟨-, h2, h3, h4⟩ := Memory.mem_zeros hc
  have hl : c.1 < len := by simp only [List.length_take] at h2; omega
  refine ⟨hl, fun e => h4 ?_⟩
  rw [h3, Memory.unlisted] at e
  simp only [Nat.sub_zero, List.getD_eq_getElem?_getD, List.getElem?_take, hl, if_true] at e ⊢
  exact e.symm

theorem Memory.read_zeros (init bs : List Byte) (off : Nat)
    (h : ∀ a, off ≤ a → a < off + bs.length → bs.getD (a - off) 0 = Memory.unlisted init a) (a : Nat) :
    Memory.read init (Memory.zeros off bs) a =
      if off ≤ a ∧ a < off + bs.length then 0 else Memory.unlisted init a := by
  induction bs generalizing off with
  | nil => simp only [Memory.zeros, Memory.read_nil, List.length_nil]; split <;> first | rfl | omega
  | cons b bs ih =>
    have ih' := ih (off + 1) (fun a h1 h2 => by
      have := h a (by omega) (by simp only [List.length_cons]; omega)
      rwa [show a - off = (a - (off + 1)) + 1 by omega, List.getD_cons_succ] at this)
    have h0 := h off (le_refl _) (by simp)
    simp only [Nat.sub_self, List.getD_cons_zero] at h0
    simp only [Memory.zeros]
    split
    · next hb =>
      rw [ih']
      by_cases ha : a = off
      · subst ha; simp [← h0, hb]
      · simp only [List.length_cons]
        split <;> split <;> first | rfl | omega
    · rw [Memory.read_cons, ih']
      by_cases ha : off = a
      · subst ha; simp
      · rw [if_neg ha]
        simp only [List.length_cons]
        split <;> split <;> first | rfl | omega

/-- A cleared buffer reads 0 at every offset of the buffer. -/
theorem Memory.read_cleared (init : List Byte) (len a : Nat) (h : a < len) :
    Memory.read init (Memory.zeros 0 (init.take len)) a = 0 := by
  rw [Memory.read_zeros init (init.take len) 0]
  · split
    · rfl
    · next hn =>
      simp only [List.length_take] at hn
      have : init.length ≤ a := by omega
      simp [Memory.unlisted, List.getD_eq_getElem?_getD, this]
  · intro a _ h2
    simp only [List.length_take] at h2
    simp only [Memory.unlisted, Nat.sub_zero, List.getD_eq_getElem?_getD, List.getElem?_take]
    rw [if_pos (by omega)]

end Sys2Proof.Machine
end

