-- ==== Sys2Proof/Laws/Ops.lean ====
section
/-! SUPPORT. What each shared operation can do, said once: checked pixel access, loops, the line walk, glyphs, text and blit, the
checks of decoding, the end of a drawing command. Provers cite these instead of unfolding the operations. -/

namespace Sys2Proof.Machine

open Sys2Proof

/-! ### Coordinates -/

theorem inRange_iff (c : Config) (t : Nat) (x y : Int) :
    inRange c t x y = true ↔ 0 ≤ x ∧ x < c.width t ∧ 0 ≤ y ∧ y < c.height t := by
  simp [inRange, and_assoc]

/-- The offset of a pixel given by naturals. -/
theorem pixelOffset_nat (c : Config) (t x y : Nat) :
    pixelOffset c t (x : Int) (y : Int) = (y * c.width t + x) * 2 := by
  unfold pixelOffset; norm_cast

/-- A pixel in range lies inside the buffer (20_memory.md R51, R60). -/
theorem pixelOffset_lt {c : Config} {t : Nat} {x y : Int} (h : inRange c t x y = true) :
    pixelOffset c t x y + 1 < c.bufLen t := by
  obtain ⟨hx, hxw, hy, hyh⟩ := (inRange_iff c t x y).mp h
  lift x to Nat using hx
  lift y to Nat using hy
  rw [pixelOffset_nat]
  have h1 : y + 1 ≤ c.height t := by omega
  have h2 : (y + 1) * c.width t ≤ c.height t * c.width t := Nat.mul_le_mul_right _ h1
  have h3 : c.width t * c.height t = c.height t * c.width t := Nat.mul_comm _ _
  have h4 : (y + 1) * c.width t = y * c.width t + c.width t := by ring
  unfold Config.bufLen
  omega

/-- Pixel offsets are even (20_memory.md R60). -/
theorem pixelOffset_even (c : Config) (t : Nat) {x y : Int} (hx : 0 ≤ x) (hy : 0 ≤ y) :
    pixelOffset c t x y % 2 = 0 := by
  lift x to Nat using hx
  lift y to Nat using hy
  rw [pixelOffset_nat]; omega

/-- Different pixels in range have different offsets. -/
theorem pixelOffset_inj {c : Config} {t : Nat} {x y x' y' : Int} (h : inRange c t x y = true)
    (h' : inRange c t x' y' = true) (e : pixelOffset c t x y = pixelOffset c t x' y') : x = x' ∧ y = y' := by
  obtain ⟨hx, hxw, hy, hyh⟩ := (inRange_iff c t x y).mp h
  obtain ⟨hx', hxw', hy', hyh'⟩ := (inRange_iff c t x' y').mp h'
  lift x to Nat using hx
  lift y to Nat using hy
  lift x' to Nat using hx'
  lift y' to Nat using hy'
  rw [pixelOffset_nat, pixelOffset_nat] at e
  have e' : y * c.width t + x = y' * c.width t + x' := by omega
  have hw : 0 < c.width t := by omega
  have hX : x = x' := by
    have := congrArg (· % c.width t) e'
    simpa [Nat.add_mod, Nat.mod_eq_of_lt (show x < c.width t by omega),
      Nat.mod_eq_of_lt (show x' < c.width t by omega)] using this
  subst hX
  have : y * c.width t = y' * c.width t := by omega
  exact ⟨rfl, by exact_mod_cast Nat.eq_of_mul_eq_mul_right hw this⟩

/-! ### Buffers inside the state -/

theorem State.setBuf_buf_ne (s : State) {t u : Nat} (m : Memory) (h : u ≠ t) : (s.setBuf t m).buf u = s.buf u := by
  simp [State.buf, List.getD_eq_getElem?_getD, List.getElem?_set_ne (Ne.symm h)]

theorem State.setBuf_buf_self (s : State) {t : Nat} (m : Memory) (h : t < s.bufs.length) : (s.setBuf t m).buf t = m := by
  simp [State.buf, List.getD_eq_getElem?_getD, h]

/-- Reading a byte after writing one, in a surface whose buffer is canonical. -/
theorem State.readByte_writeByte (s : State) {t : Nat} (off : Nat) (b : Byte) (h : s.BufsOk) (ht : t < s.cfg.nsurf)
    (u o : Nat) : (s.writeByte t off b).readByte u o = if u = t ∧ o = off then b else s.readByte u o := by
  unfold State.readByte State.writeByte
  by_cases hu : u = t
  · subst hu
    rw [State.setBuf_buf_self _ _ (by rw [h.1]; exact ht)]
    simp only [true_and]
    exact Memory.read_write _ _ _ _ ((Memory.wf_iff _ _ _).mp (h.2 u ht)).1 _
  · rw [State.setBuf_buf_ne _ _ hu]
    simp only [hu, false_and, if_false]
    rfl

theorem State.BufsOk.setBuf {s : State} {t : Nat} {m : Memory} (h : s.BufsOk)
    (hm : t < s.cfg.nsurf → Memory.wf (s.initBuf t) (s.cfg.bufLen t) m = true) : (s.setBuf t m).BufsOk := by
  refine ⟨by simpa using h.1, fun u hu => ?_⟩
  by_cases e : u = t
  · subst e
    rw [State.setBuf_buf_self _ _ (by rw [h.1]; exact hu)]
    exact hm hu
  · rw [State.setBuf_buf_ne _ _ e]; exact h.2 u hu

theorem State.BufsOk.writeByte {s : State} {t off : Nat} {b : Byte} (h : s.BufsOk) (ho : off < s.cfg.bufLen t) :
    (s.writeByte t off b).BufsOk :=
  h.setBuf (fun ht => Memory.wf_write (h.2 t ht) ho)

theorem State.BufsOk.writePixel {s : State} {t off : Nat} {v : Pixel} (h : s.BufsOk) (ho : off + 1 < s.cfg.bufLen t) :
    (s.writePixel t off v).BufsOk :=
  State.BufsOk.writeByte (h.writeByte (by omega)) ho

theorem State.BufsOk.bulkClear {s : State} (t : Nat) (h : s.BufsOk) : (s.bulkClear t).BufsOk :=
  h.setBuf (fun _ => Memory.wf_zeros _ _)

/-- Reading a byte after writing a pixel (20_memory.md R57): its two bytes, high byte first, and nothing else. -/
theorem State.readByte_writePixel (s : State) {t : Nat} (off : Nat) (v : Pixel) (h : s.BufsOk) (ht : t < s.cfg.nsurf)
    (ho : off + 1 < s.cfg.bufLen t) (u o : Nat) :
    (s.writePixel t off v).readByte u o =
      if u = t ∧ o = off then v.extractLsb' 8 8 else if u = t ∧ o = off + 1 then v.extractLsb' 0 8
      else s.readByte u o := by
  unfold State.writePixel
  rw [State.readByte_writeByte _ _ _ (h.writeByte (by omega)) (by simpa using ht),
    State.readByte_writeByte _ _ _ h ht]
  by_cases h1 : u = t ∧ o = off
  · rw [if_neg (by omega), if_pos h1, if_pos h1]
  · rw [if_neg h1, if_neg h1]

theorem append_extractLsb' (v : Pixel) : v.extractLsb' 8 8 ++ v.extractLsb' 0 8 = v := by
  ext i hi
  simp only [BitVec.getElem_append, BitVec.getElem_extractLsb']
  split
  · next h => simp [← BitVec.getLsbD_eq_getElem]
  · next h => rw [← BitVec.getLsbD_eq_getElem]; congr 1; omega

/-- Reading back the pixel just written. -/
theorem State.readPixel_writePixel (s : State) {t : Nat} (off : Nat) (v : Pixel) (h : s.BufsOk) (ht : t < s.cfg.nsurf)
    (ho : off + 1 < s.cfg.bufLen t) : (s.writePixel t off v).readPixel t off = v := by
  unfold State.readPixel
  rw [State.readByte_writePixel _ _ _ h ht ho, State.readByte_writePixel _ _ _ h ht ho]
  simp [append_extractLsb']

theorem State.readByte_bulkClear (s : State) {t : Nat} (h : s.BufsOk) (ht : t < s.cfg.nsurf) (u o : Nat)
    (ho : o < s.cfg.bufLen u) : (s.bulkClear t).readByte u o = if u = t then 0 else s.readByte u o := by
  unfold State.readByte State.bulkClear
  by_cases hu : u = t
  · subst hu
    rw [State.setBuf_buf_self _ _ (by rw [h.1]; exact ht)]
    rw [if_pos rfl]
    exact Memory.read_cleared (s.initBuf u) _ _ ho
  · rw [State.setBuf_buf_ne _ _ hu]
    simp only [hu, if_false]
    rfl

/-! ### What a drawing procedure leaves alone

A drawing procedure on surface `t` is a sequence of checked pixel writes on `t`. So a relation that every state has to itself,
that composes, and that every such write keeps, holds between the state before any drawing procedure and the state after it. -/

/-- A relation that checked pixel writes on surface `t` keep. -/
structure PixelClosed (t : Nat) (R : State → State → Prop) : Prop where
  refl  : ∀ s, R s s
  trans : ∀ a b c, R a b → R b c → R a c
  write : ∀ s x y v, inRange s.cfg t x y = true → R s (s.writePixel t (pixelOffset s.cfg t x y) v)

theorem pixWrite_rel {t : Nat} {R : State → State → Prop} (hR : PixelClosed t R) (x y : Int) (v : Pixel) (s : State) :
    R s (pixWrite t x y v s).state := by
  unfold pixWrite
  split
  · next h => exact hR.write s x y v h
  · exact hR.refl s

theorem Drawn.andThen_rel {t : Nat} {R : State → State → Prop} (hR : PixelClosed t R) {s : State} {d : Drawn}
    {k : State → Drawn} (hd : R s d.state) (hk : ∀ s', R s' (k s').state) : R s (d.andThen k).state := by
  cases d with
  | done s' => exact hR.trans _ _ _ hd (hk s')
  | raised f s' => exact hd

theorem loopFrom_rel {t : Nat} {R : State → State → Prop} (hR : PixelClosed t R) {body : Nat → State → Drawn}
    (hb : ∀ i s, R s (body i s).state) (n i : Nat) (s : State) : R s (loopFrom body n i s).state := by
  induction n generalizing i s with
  | zero => exact hR.refl s
  | succ n ih => exact Drawn.andThen_rel hR (hb i s) (fun s' => ih (i + 1) s')

theorem loop_rel {t : Nat} {R : State → State → Prop} (hR : PixelClosed t R) {body : Nat → State → Drawn}
    (hb : ∀ i s, R s (body i s).state) (n : Nat) (s : State) : R s (loop n body s).state :=
  loopFrom_rel hR hb n 0 s

theorem walkLoop_rel {t : Nat} {R : State → State → Prop} (hR : PixelClosed t R) {plot : Int → Int → State → Drawn}
    (hp : ∀ a b s, R s (plot a b s).state) (sM sm M2 m2 : Int) (n : Nat) (k : Walk) (s : State) :
    R s (walkLoop plot sM sm M2 m2 n k s).state := by
  induction n generalizing k s with
  | zero => exact hR.refl s
  | succ n ih => exact Drawn.andThen_rel hR (hp _ _ s) (fun s' => ih _ s')

theorem lineWalk_rel {t : Nat} {R : State → State → Prop} (hR : PixelClosed t R) (v : Pixel) (x0 y0 x1 y1 : Int)
    (s : State) : R s (lineWalk t v x0 y0 x1 y1 s).state := by
  simp only [lineWalk]
  split
  · exact walkLoop_rel hR (fun a b s => pixWrite_rel hR a b v s) _ _ _ _ _ _ s
  · exact walkLoop_rel hR (fun a b s => pixWrite_rel hR b a v s) _ _ _ _ _ _ s

theorem line_rel {t : Nat} {R : State → State → Prop} (hR : PixelClosed t R) (v : Pixel) (x0 y0 x1 y1 : Int) (s : State) :
    R s (line t v x0 y0 x1 y1 s).state :=
  Drawn.andThen_rel hR (pixWrite_rel hR _ _ _ s) (fun s' => lineWalk_rel hR v x0 y0 x1 y1 s')

theorem rectOutline_rel {t : Nat} {R : State → State → Prop} (hR : PixelClosed t R) (v : Pixel) (x y w h : Int)
    (s : State) : R s (rectOutline t v x y w h s).state :=
  Drawn.andThen_rel hR (line_rel hR _ _ _ _ _ s) fun s' =>
    Drawn.andThen_rel hR (line_rel hR _ _ _ _ _ s') fun s' =>
      Drawn.andThen_rel hR (line_rel hR _ _ _ _ _ s') fun s' => line_rel hR _ _ _ _ _ s'

theorem drawGlyph_rel {t : Nat} {R : State → State → Prop} (hR : PixelClosed t R) (v : Pixel) (g : List Byte)
    (cx cy scale : Int) (s : State) : R s (drawGlyph t v g cx cy scale s).state := by
  refine loop_rel hR (fun c s => loop_rel hR (fun hs s => loop_rel hR (fun r s =>
    loop_rel hR (fun vs s => ?_) _ s) _ s) _ s) _ s
  split
  · exact pixWrite_rel hR _ _ _ s
  · exact hR.refl s

theorem textLoop_rel {t : Nat} {R : State → State → Prop} (hR : PixelClosed t R) (v : Pixel) (x scale : Int)
    (ps : List Word) (i : Nat) (cx cy : Int) (s : State) : R s (textLoop t v x scale ps i cx cy s).state := by
  induction ps generalizing i cx cy s with
  | nil => exact hR.refl s
  | cons p ps ih =>
    unfold textLoop
    split
    · split
      · exact hR.refl s
      · exact Drawn.andThen_rel hR (drawGlyph_rel hR v _ _ _ _ s) (fun s' => ih _ _ _ s')
    · split
      · exact ih _ _ _ s
      · split
        · exact ih _ _ _ s
        · exact ih _ _ _ s

theorem copyPixel_rel {t : Nat} {R : State → State → Prop} (hR : PixelClosed t R) (src : Nat) (x y : Int) (s : State) :
    R s (copyPixel src t x y s).state := by
  unfold copyPixel
  split
  · exact pixWrite_rel hR _ _ _ s
  · exact hR.refl s

theorem copyRect_rel {t : Nat} {R : State → State → Prop} (hR : PixelClosed t R) (src w h : Nat) (s : State) :
    R s (copyRect src t w h s).state :=
  loop_rel hR (fun yy s => loop_rel hR (fun xx s => copyPixel_rel hR src xx yy s) _ s) _ s

/-- Everything but the bytes of surface `t`'s buffer is the same. -/
structure OnlyBuf (t : Nat) (s s' : State) : Prop where
  cfg    : s'.cfg = s.cfg
  status : s'.status = s.status
  finfo0 : s'.finfo0 = s.finfo0
  finfo1 : s'.finfo1 = s.finfo1
  fcmd   : s'.fcmd = s.fcmd
  out    : s'.out = s.out
  port   : s'.port = s.port
  resp   : s'.resp = s.resp
  len    : s'.bufs.length = s.bufs.length
  other  : ∀ u, u ≠ t → s'.buf u = s.buf u
  canon  : s.BufsOk → s'.BufsOk

/-- The frame of every drawing procedure on surface `t`: use with `line_rel`, `rectOutline_rel`, `textLoop_rel`,
`copyRect_rel`, `pixWrite_rel`. -/
theorem onlyBuf_closed (t : Nat) : PixelClosed t (OnlyBuf t) where
  refl s := ⟨rfl, rfl, rfl, rfl, rfl, rfl, rfl, rfl, rfl, fun _ _ => rfl, id⟩
  trans a b c h k :=
    ⟨k.cfg.trans h.cfg, k.status.trans h.status, k.finfo0.trans h.finfo0, k.finfo1.trans h.finfo1,
      k.fcmd.trans h.fcmd, k.out.trans h.out, k.port.trans h.port, k.resp.trans h.resp, k.len.trans h.len,
      fun u hu => (k.other u hu).trans (h.other u hu), fun hb => k.canon (h.canon hb)⟩
  write s x y v hr :=
    ⟨rfl, rfl, rfl, rfl, rfl, rfl, rfl, rfl, by simp [State.writePixel, State.writeByte, State.setBuf], fun u hu => by
      simp only [State.writePixel, State.writeByte, State.setBuf_buf_ne _ _ hu],
      fun hb => hb.writePixel (pixelOffset_lt hr)⟩

/-! ### The ends of a command -/

/-- What a checked pixel write can answer. -/
theorem pixWrite_cases (t : Nat) (x y : Int) (v : Pixel) (s : State) :
    (inRange s.cfg t x y = true ∧ pixWrite t x y v s = .done (s.writePixel t (pixelOffset s.cfg t x y) v)) ∨
      (inRange s.cfg t x y = false ∧ pixWrite t x y v s = .raised (.pixelRange x y) s) := by
  cases h : inRange s.cfg t x y <;> simp [pixWrite, h]

/-- What a checked pixel read can answer. -/
theorem pixRead_cases (t : Nat) (x y : Int) (s : State) :
    (inRange s.cfg t x y = true ∧ pixRead t x y s = .ok (s.readPixel t (pixelOffset s.cfg t x y))) ∨
      (inRange s.cfg t x y = false ∧ pixRead t x y s = .error (.pixelRange x y)) := by
  cases h : inRange s.cfg t x y <;> simp [pixRead, h]

/-- The end of a drawing command: OK, or fault entry. -/
theorem finish_cases (h : Word) (d : Drawn) :
    (∃ s, d = .done s ∧ finish h d = .next (s.respond .ok 0)) ∨
      (∃ f s, d = .raised f s ∧ finish h d = .next (takeFault h f s)) := by
  cases d with
  | done s => exact .inl ⟨s, rfl, rfl⟩
  | raised f s => exact .inr ⟨f, s, rfl, rfl⟩

/-- What the checks of decoding do with a command without operands to unpack. -/
theorem onSurface_cases (t : Byte) (s : State) (body : State → Result) :
    (s.isFaulted = true ∧ onSurface t s body = .next (s.respond .faulted 0)) ∨
      (s.isFaulted = false ∧ ¬ t.toNat < s.cfg.nsurf ∧ onSurface t s body = .next (s.respond .illegalCommand 0)) ∨
      (s.Ready t ∧ onSurface t s body = body s) := by
  unfold onSurface State.Ready raiseError
  cases hf : s.isFaulted
  · by_cases ht : t.toNat < s.cfg.nsurf <;> simp [ht]
  · simp

/-- What the checks of decoding do: reject, or run the body on the operands of a ready surface. -/
theorem withOperands_cases {α : Type} (t : Byte) (ops : Packed α) (s : State) (body : α → State → Result) :
    (s.isFaulted = true ∧ withOperands t ops s body = .next (s.respond .faulted 0)) ∨
      (s.isFaulted = false ∧ (¬ t.toNat < s.cfg.nsurf ∨ ∃ ws, ops = .otherLen ws) ∧
        withOperands t ops s body = .next (s.respond .illegalCommand 0)) ∨
      (∃ o, s.Ready t ∧ ops = .fields o ∧ withOperands t ops s body = body o s) := by
  cases ops with
  | fields o =>
    rcases onSurface_cases t s (body o) with h | ⟨h1, h2, h3⟩ | ⟨h1, h2⟩
    · exact .inl h
    · exact .inr (.inl ⟨h1, .inl h2, h3⟩)
    · exact .inr (.inr ⟨o, h1, rfl, h2⟩)
  | otherLen ws =>
    cases hf : s.isFaulted
    · exact .inr (.inl ⟨rfl, .inr ⟨ws, rfl⟩, by simp [withOperands, hf, raiseError]⟩)
    · exact .inl ⟨rfl, by simp [withOperands, hf, raiseError]⟩

/-- On a ready surface a command with its operands runs its own rule. -/
@[simp] theorem withOperands_ready {α : Type} {t : Byte} {s : State} (h : s.Ready t) (o : α) (body : α → State → Result) :
    withOperands t (.fields o) s body = body o s := by
  simp [withOperands, onSurface, h.1, h.2]

@[simp] theorem onSurface_ready {t : Byte} {s : State} (h : s.Ready t) (body : State → Result) :
    onSurface t s body = body s := by
  simp [onSurface, h.1, h.2]

/-- STATUS after a `PixelRange` fault. -/
theorem faultStatus_pixelRange : faultStatus Code.pixelRange.number = 0x501 := by decide

/-- STATUS after a `GlyphRange` fault. -/
theorem faultStatus_glyphRange : faultStatus Code.glyphRange.number = 0x601 := by decide

/-- After fault entry the machine is faulted (60_exceptions.md R269). -/
@[simp] theorem takeFault_isFaulted (h : Word) (f : Raise) (s : State) : (takeFault h f s).isFaulted = true := by
  cases f <;> simp only [State.isFaulted, takeFault_status, Raise.code, faultStatus_pixelRange, faultStatus_glyphRange]
    <;> decide

end Sys2Proof.Machine
end

