-- ==== Sys2Proof/Laws/Draw.lean ====
section
/-! SUPPORT. What a drawing procedure paints: `Covers t v P s d` says that `d`, begun in `s`, plots exactly the pixels in `P` in
value `v` if they are all in range, and otherwise stops at one that is not. It composes along `andThen` and the loops, so one
lemma per procedure gives both where it completes and where it faults. -/

namespace Sys2Proof.Machine

open Sys2Proof

/-- Bytes of different pixels in range are different bytes. -/
theorem ByteOfPixel.unique {c : Config} {t : Nat} {x y x' y' : Int} {u o : Nat} (h : inRange c t x y = true)
    (h' : inRange c t x' y' = true) (b : ByteOfPixel c t x y u o) (b' : ByteOfPixel c t x' y' u o) : x = x' ∧ y = y' := by
  obtain ⟨hx, -, hy, -⟩ := (inRange_iff c t x y).mp h
  obtain ⟨hx', -, hy', -⟩ := (inRange_iff c t x' y').mp h'
  have e := pixelOffset_even c t hx hy
  have e' := pixelOffset_even c t hx' hy'
  refine pixelOffset_inj h h' ?_
  rcases b with ⟨-, b⟩
  rcases b' with ⟨-, b'⟩
  omega

/-- The state after painting exactly `P`. -/
structure Painted (t : Nat) (v : Pixel) (P : Int → Int → Prop) (s s' : State) : Prop where
  only  : OnlyBuf t s s'
  paint : PaintsOnly t v P s s'

/-- What a drawing procedure begun in `s` comes to, for the set `P` of pixels it plots. -/
def Covers (t : Nat) (v : Pixel) (P : Int → Int → Prop) (s : State) : Drawn → Prop
  | .done s' => (∀ x y, P x y → inRange s.cfg t x y = true) ∧ Painted t v P s s'
  | .raised f s' =>
    ∃ x y, f = .pixelRange x y ∧ P x y ∧ inRange s.cfg t x y = false ∧ OnlyBuf t s s' ∧
      ∀ u o, (∀ x y, P x y → inRange s.cfg t x y = true → ¬ ByteOfPixel s.cfg t x y u o) →
        s'.readByte u o = s.readByte u o

theorem Painted.nothing (t : Nat) (v : Pixel) (s : State) : Painted t v (fun _ _ => False) s s :=
  ⟨(onlyBuf_closed t).refl s, fun _ _ h => h.elim, fun _ _ _ => rfl⟩

/-- Painting one set and then another is painting both. -/
theorem Painted.trans {t : Nat} {v : Pixel} {P Q : Int → Int → Prop} {a b c : State} (h : Painted t v P a b)
    (k : Painted t v Q b c) : Painted t v (fun x y => P x y ∨ Q x y) a c := by
  refine ⟨(onlyBuf_closed t).trans _ _ _ h.only k.only, ?_, ?_⟩
  · intro x y hpq hr
    by_cases hq : Q x y
    · have := k.paint.1 x y hq (by rw [h.only.cfg]; exact hr)
      rwa [h.only.cfg] at this
    · have hp : P x y := hpq.resolve_right hq
      have hb := h.paint.1 x y hp hr
      have untouched (o : Nat) (ho : ByteOfPixel a.cfg t x y t o) : c.readByte t o = b.readByte t o := by
        refine k.paint.2 t o (fun x' y' hq' hr' hb' => hq ?_)
        rw [h.only.cfg] at hr' hb'
        obtain ⟨rfl, rfl⟩ := ByteOfPixel.unique hr hr' ho hb'
        exact hq'
      rw [← hb]
      unfold State.readPixel
      rw [untouched _ ⟨rfl, .inl rfl⟩, untouched _ ⟨rfl, .inr rfl⟩]
  · intro u o hn
    rw [k.paint.2 u o (fun x y hq hr => by rw [h.only.cfg] at hr ⊢; exact hn x y (.inr hq) hr),
      h.paint.2 u o (fun x y hp hr => hn x y (.inl hp) hr)]

/-- The same set under another description. -/
theorem Covers.congr {t : Nat} {v : Pixel} {P Q : Int → Int → Prop} {s : State} {d : Drawn} (h : Covers t v P s d)
    (e : ∀ x y, P x y ↔ Q x y) : Covers t v Q s d := by
  have : P = Q := by funext x y; exact propext (e x y)
  exact this ▸ h

theorem Covers.nothing (t : Nat) (v : Pixel) (s : State) : Covers t v (fun _ _ => False) s (.done s) :=
  ⟨fun _ _ h => h.elim, Painted.nothing t v s⟩

/-- One checked pixel write. -/
theorem covers_pixWrite {t : Nat} {s : State} (hb : s.BufsOk) (ht : t < s.cfg.nsurf) (x y : Int) (v : Pixel) :
    Covers t v (fun a b => a = x ∧ b = y) s (pixWrite t x y v s) := by
  rcases pixWrite_cases t x y v s with ⟨hr, e⟩ | ⟨hr, e⟩ <;> rw [e]
  · have ho := pixelOffset_lt hr
    refine ⟨?_, (onlyBuf_closed t).write s x y v hr, ?_, ?_⟩
    · rintro _ _ ⟨rfl, rfl⟩; exact hr
    · rintro _ _ ⟨rfl, rfl⟩ -; exact State.readPixel_writePixel s _ v hb ht ho
    · intro u o hn
      have hn := hn x y ⟨rfl, rfl⟩ hr
      rw [State.readByte_writePixel s _ v hb ht ho, if_neg (fun h => hn ⟨h.1, .inl h.2⟩),
        if_neg (fun h => hn ⟨h.1, .inr h.2⟩)]
  · exact ⟨x, y, rfl, ⟨rfl, rfl⟩, hr, (onlyBuf_closed t).refl s, fun _ _ _ => rfl⟩

/-- One procedure after another covers both sets. -/
theorem Covers.andThen {t : Nat} {v : Pixel} {P Q : Int → Int → Prop} {s : State} {d : Drawn} {k : State → Drawn}
    (h : Covers t v P s d) (hb : s.BufsOk)
    (hk : ∀ s', s'.BufsOk → s'.cfg = s.cfg → Covers t v Q s' (k s')) :
    Covers t v (fun x y => P x y ∨ Q x y) s (d.andThen k) := by
  cases d with
  | raised f s' =>
    obtain ⟨x, y, hf, hp, hr, ho, hu⟩ := h
    exact ⟨x, y, hf, .inl hp, hr, ho, fun u o hn => hu u o (fun x y hp hr => hn x y (.inl hp) hr)⟩
  | done s' =>
    obtain ⟨hin, hp⟩ := h
    have hc := hp.only.cfg
    have hk := hk s' (hp.only.canon hb) hc
    simp only [Drawn.andThen]
    cases hd : k s' with
    | done s'' =>
      rw [hd] at hk
      obtain ⟨hin', hp'⟩ := hk
      refine ⟨fun x y hpq => ?_, hp.trans hp'⟩
      rcases hpq with h | h
      · exact hin x y h
      · rw [← hc]; exact hin' x y h
    | raised f s'' =>
      rw [hd] at hk
      obtain ⟨x, y, hf, hq, hr, ho, hu⟩ := hk
      rw [hc] at hr
      refine ⟨x, y, hf, .inr hq, hr, (onlyBuf_closed t).trans _ _ _ hp.only ho, fun u o hn => ?_⟩
      rw [hu u o (fun x y hq hr => by rw [hc] at hr ⊢; exact hn x y (.inr hq) hr),
        hp.paint.2 u o (fun x y hp hr => hn x y (.inl hp) hr)]

/-- A loop covers the union of what its passes cover. -/
theorem covers_loopFrom {t : Nat} {v : Pixel} {P : Nat → Int → Int → Prop} {body : Nat → State → Drawn} {c : Config}
    (hbody : ∀ i s, s.BufsOk → s.cfg = c → Covers t v (P i) s (body i s)) (n i : Nat) (s : State) (hb : s.BufsOk)
    (hc : s.cfg = c) : Covers t v (fun x y => ∃ j, i ≤ j ∧ j < i + n ∧ P j x y) s (loopFrom body n i s) := by
  induction n generalizing i s with
  | zero => exact (Covers.nothing t v s).congr (fun x y => ⟨False.elim, fun ⟨j, h1, h2, _⟩ => by omega⟩)
  | succ n ih =>
    refine ((hbody i s hb hc).andThen hb (fun s' hb' hc' => ih (i + 1) s' hb' (hc'.trans hc))).congr (fun x y => ?_)
    constructor
    · rintro (h | ⟨j, h1, h2, h3⟩)
      · exact ⟨i, by omega, by omega, h⟩
      · exact ⟨j, by omega, by omega, h3⟩
    · rintro ⟨j, h1, h2, h3⟩
      rcases Nat.eq_or_lt_of_le h1 with rfl | h1
      · exact .inl h3
      · exact .inr ⟨j, by omega, by omega, h3⟩

theorem covers_loop {t : Nat} {v : Pixel} {P : Nat → Int → Int → Prop} {body : Nat → State → Drawn} {c : Config}
    (hbody : ∀ i s, s.BufsOk → s.cfg = c → Covers t v (P i) s (body i s)) (n : Nat) (s : State) (hb : s.BufsOk)
    (hc : s.cfg = c) : Covers t v (fun x y => ∃ j, j < n ∧ P j x y) s (loop n body s) :=
  (covers_loopFrom hbody n 0 s hb hc).congr (fun x y =>
    ⟨fun ⟨j, _, h2, h3⟩ => ⟨j, by omega, h3⟩, fun ⟨j, h2, h3⟩ => ⟨j, by omega, by omega, h3⟩⟩)

/-- Plotting a list covers its pixels. -/
theorem covers_plotAll {t : Nat} (v : Pixel) (ps : List (Int × Int)) (s : State) (hb : s.BufsOk) (ht : t < s.cfg.nsurf) :
    Covers t v (fun x y => (x, y) ∈ ps) s (plotAll t v ps s) := by
  induction ps generalizing s with
  | nil => exact (Covers.nothing t v s).congr (fun x y => by simp)
  | cons p ps ih =>
    refine ((covers_pixWrite hb ht p.1 p.2 v).andThen hb
      (fun s' hb' hc' => ih s' hb' (by rw [hc']; exact ht))).congr (fun x y => ?_)
    simp [Prod.ext_iff]

/-- Where every pixel is in range the procedure completes. -/
theorem Covers.completes {t : Nat} {v : Pixel} {P : Int → Int → Prop} {s : State} {d : Drawn} (h : Covers t v P s d)
    (hin : ∀ x y, P x y → inRange s.cfg t x y = true) : ∃ s', d = .done s' ∧ Painted t v P s s' := by
  cases d with
  | done s' => exact ⟨s', rfl, h.2⟩
  | raised f s' =>
    obtain ⟨x, y, -, hp, hr, -⟩ := h
    exact absurd (hin x y hp) (by simp [hr])

/-- Where some pixel is out of range the procedure faults at one. -/
theorem Covers.faults {t : Nat} {v : Pixel} {P : Int → Int → Prop} {s : State} {d : Drawn} (h : Covers t v P s d)
    (hout : ∃ x y, P x y ∧ inRange s.cfg t x y = false) :
    ∃ s' x y, d = .raised (.pixelRange x y) s' ∧ P x y ∧ inRange s.cfg t x y = false ∧ OnlyBuf t s s' ∧
      ∀ u o, (∀ x y, P x y → inRange s.cfg t x y = true → ¬ ByteOfPixel s.cfg t x y u o) →
        s'.readByte u o = s.readByte u o := by
  cases d with
  | done s' =>
    obtain ⟨x, y, hp, hr⟩ := hout
    exact absurd (h.1 x y hp) (by simp [hr])
  | raised f s' =>
    obtain ⟨x, y, rfl, hp, hr, ho, hu⟩ := h
    exact ⟨s', x, y, rfl, hp, hr, ho, hu⟩

/-! ### Plotting in order -/

theorem plotAll_append (t : Nat) (v : Pixel) (ps qs : List (Int × Int)) (s : State) :
    plotAll t v (ps ++ qs) s = (plotAll t v ps s).andThen (plotAll t v qs) := by
  induction ps generalizing s with
  | nil => rfl
  | cons p ps ih =>
    simp only [List.cons_append, plotAll]
    cases pixWrite t p.1 p.2 v s with
    | done s' => exact ih s'
    | raised f s' => rfl

/-- A loop whose passes plot lists plots the lists one after another. -/
theorem loop_plotAll {t : Nat} {v : Pixel} {body : Nat → State → Drawn} {f : Nat → List (Int × Int)}
    (h : ∀ i s, body i s = plotAll t v (f i) s) (n : Nat) (s : State) :
    loop n body s = plotAll t v ((List.range n).flatMap f) s := by
  have key (n i : Nat) (s : State) : loopFrom body n i s = plotAll t v ((List.range' i n).flatMap f) s := by
    induction n generalizing i s with
    | zero => rfl
    | succ n ih =>
      rw [List.range'_succ, List.flatMap_cons, plotAll_append, loopFrom, h]
      congr 1
      funext s'
      exact ih (i + 1) s'
  rw [List.range_eq_range']
  exact key n 0 s

/-- A glyph plots its lit pixels in the order of 44_text.md R208. -/
theorem drawGlyph_plotAll (t : Nat) (v : Pixel) (glyph : List Byte) (cx cy scale : Int) (s : State) :
    drawGlyph t v glyph cx cy scale s = plotAll t v (glyphPixels glyph cx cy scale) s := by
  refine loop_plotAll (fun c s => loop_plotAll (fun hs s => loop_plotAll (fun r s => loop_plotAll (fun vs s => ?_) _ s) _ s)
    _ s) _ s
  cases litBit glyph c r
  · rfl
  · simp only [if_true, plotAll]
    cases pixWrite t (cx + c * scale + hs) (cy + r * scale + vs) v s <;> rfl

/-- A list of pixels with one out of range has a first one. -/
theorem exists_firstOutside {c : Config} {t : Nat} {ps : List (Int × Int)} (h : ∃ q ∈ ps, inRange c t q.1 q.2 = false) :
    ∃ k p, FirstOutside c t ps k p := by
  induction ps with
  | nil => simp at h
  | cons a ps ih =>
    by_cases ha : inRange c t a.1 a.2 = true
    · obtain ⟨k, p, hk, hp, hb⟩ := ih (by
        obtain ⟨q, hq, hr⟩ := h
        rcases List.mem_cons.mp hq with rfl | hq
        · simp [ha] at hr
        · exact ⟨q, hq, hr⟩)
      exact ⟨k + 1, p, by simpa using hk, hp, by simpa [ha] using hb⟩
    · exact ⟨0, a, rfl, by simpa using ha, by simp⟩

/-- Plotting stops at the first pixel out of range, with exactly the pixels before it painted. -/
theorem plotAll_firstOutside {t : Nat} (v : Pixel) {ps : List (Int × Int)} {s : State} (hb : s.BufsOk)
    (ht : t < s.cfg.nsurf) {k : Nat} {p : Int × Int} (h : FirstOutside s.cfg t ps k p) :
    ∃ s', plotAll t v ps s = .raised (.pixelRange p.1 p.2) s' ∧
      Painted t v (fun x y => (x, y) ∈ ps.take k) s s' := by
  obtain ⟨hk, hp, hin⟩ := h
  obtain ⟨s', e, hd⟩ := (covers_plotAll v (ps.take k) s hb ht).completes (fun x y hm => hin (x, y) hm)
  refine ⟨s', ?_, hd⟩
  obtain ⟨hlt, hkp⟩ := List.getElem?_eq_some_iff.mp hk
  have split : ps = ps.take k ++ p :: ps.drop (k + 1) := by
    rw [← hkp, ← List.drop_eq_getElem_cons hlt, List.take_append_drop]
  rw [split, plotAll_append, e]
  simp [Drawn.andThen, plotAll, pixWrite, hd.only.cfg, hp]

/-! ### The lists of lit pixels -/

theorem mem_glyphPixels (glyph : List Byte) (cx cy scale px py : Int) :
    (px, py) ∈ glyphPixels glyph cx cy scale ↔ ∃ col r hs vs : Nat, col < 5 ∧ r < 8 ∧ (hs : Int) < scale ∧ (vs : Int) < scale ∧
      litBit glyph col r = true ∧ px = cx + col * scale + hs ∧ py = cy + r * scale + vs := by
  simp only [glyphPixels, List.mem_flatMap, List.mem_range]
  constructor
  · rintro ⟨c, hc, hs, hhs, r, hr, vs, hvs, hm⟩
    cases hl : litBit glyph c r <;> simp only [hl, if_true, List.mem_singleton, Prod.mk.injEq] at hm
    · simp at hm
    · exact ⟨c, r, hs, vs, hc, hr, by omega, by omega, hl, hm.1, hm.2⟩
  · rintro ⟨c, r, hs, vs, hc, hr, hhs, hvs, hl, rfl, rfl⟩
    exact ⟨c, hc, hs, by omega, r, hr, vs, by omega, by simp [hl]⟩

theorem mem_charPixels (c : Config) (text : List Word) (x y scale : Int) (j : Nat) (px py : Int) :
    (px, py) ∈ charPixels c text x y scale j ↔ CharLights c text x y scale j px py := by
  unfold charPixels CharLights
  cases hp : text[j]? with
  | none => simp
  | some p =>
    by_cases h : 32 ≤ u32 p
    · simp [h, mem_glyphPixels]
    · simp [h]

theorem mem_textPixels (c : Config) (text : List Word) (x y scale px py : Int) :
    (px, py) ∈ textPixels c text x y scale ↔ TextLights c text x y scale px py := by
  simp only [textPixels, List.mem_flatMap, List.mem_range, mem_charPixels, TextLights]
  constructor
  · rintro ⟨j, -, h⟩; exact ⟨j, h⟩
  · rintro ⟨j, p, hp, h⟩
    exact ⟨j, (List.getElem?_eq_some_iff.mp hp).1, p, hp, h⟩

end Sys2Proof.Machine
end

