-- ==== Sys2Proof/Laws/Exec.lean ====
section
/-! SUPPORT. What a command can do, said once: `exec_effect` lists the ends of every command on every state. A statement about all
commands is a case analysis on `Effect`, with no unfolding of the meanings. -/

namespace Sys2Proof.Machine

open Sys2Proof

/-! ### Which faults a drawing procedure raises -/

/-- A procedure that raises no fault but `PixelRange`. -/
def OnlyPixelRange (d : Drawn) : Prop := ∀ f s', d = .raised f s' → ∃ x y, f = .pixelRange x y

theorem onlyPixelRange_done (s : State) : OnlyPixelRange (.done s) := by
  intro f s' h; simp at h

theorem OnlyPixelRange.andThen {d : Drawn} {k : State → Drawn} (h : OnlyPixelRange d) (hk : ∀ s, OnlyPixelRange (k s)) :
    OnlyPixelRange (d.andThen k) := by
  cases d with
  | done s => exact hk s
  | raised f s => exact h

theorem onlyPixelRange_pixWrite (t : Nat) (x y : Int) (v : Pixel) (s : State) : OnlyPixelRange (pixWrite t x y v s) := by
  intro f s' h
  unfold pixWrite at h
  split at h <;> simp at h
  exact ⟨_, _, h.1.symm⟩

theorem onlyPixelRange_loop {body : Nat → State → Drawn} (h : ∀ i s, OnlyPixelRange (body i s)) (n : Nat) (s : State) :
    OnlyPixelRange (loop n body s) := by
  unfold loop
  generalize 0 = i
  induction n generalizing i s with
  | zero => exact onlyPixelRange_done s
  | succ n ih => exact (h i s).andThen (fun s' => ih s' (i + 1))

theorem onlyPixelRange_walkLoop {plot : Int → Int → State → Drawn} (h : ∀ a b s, OnlyPixelRange (plot a b s))
    (sM sm M2 m2 : Int) (n : Nat) (k : Walk) (s : State) : OnlyPixelRange (walkLoop plot sM sm M2 m2 n k s) := by
  induction n generalizing k s with
  | zero => exact onlyPixelRange_done s
  | succ n ih => exact (h _ _ s).andThen (ih _)

theorem onlyPixelRange_line (t : Nat) (v : Pixel) (x0 y0 x1 y1 : Int) (s : State) :
    OnlyPixelRange (line t v x0 y0 x1 y1 s) := by
  refine (onlyPixelRange_pixWrite _ _ _ _ _).andThen fun s => ?_
  simp only [lineWalk]
  split <;> exact onlyPixelRange_walkLoop (fun a b s => onlyPixelRange_pixWrite _ _ _ _ _) _ _ _ _ _ _ _

theorem onlyPixelRange_rectOutline (t : Nat) (v : Pixel) (x y w h : Int) (s : State) :
    OnlyPixelRange (rectOutline t v x y w h s) :=
  (onlyPixelRange_line t v _ _ _ _ s).andThen fun _ => OnlyPixelRange.andThen (onlyPixelRange_line t v _ _ _ _ _) fun _ =>
    OnlyPixelRange.andThen (onlyPixelRange_line t v _ _ _ _ _) fun _ => onlyPixelRange_line t v _ _ _ _ _

theorem onlyPixelRange_drawGlyph (t : Nat) (v : Pixel) (g : List Byte) (cx cy scale : Int) (s : State) :
    OnlyPixelRange (drawGlyph t v g cx cy scale s) := by
  refine onlyPixelRange_loop (fun _ _ => onlyPixelRange_loop (fun _ _ => onlyPixelRange_loop (fun _ _ =>
    onlyPixelRange_loop (fun _ _ => ?_) _ _) _ _) _ _) _ _
  split
  · exact onlyPixelRange_pixWrite _ _ _ _ _
  · exact onlyPixelRange_done _

theorem onlyPixelRange_copyRect (src t w h : Nat) (s : State) : OnlyPixelRange (copyRect src t w h s) := by
  refine onlyPixelRange_loop (fun yy _ => onlyPixelRange_loop (fun xx s => ?_) _ _) _ _
  unfold copyPixel
  rcases pixRead_cases src xx yy s with ⟨-, e⟩ | ⟨-, e⟩ <;> rw [e]
  · exact onlyPixelRange_pixWrite _ _ _ _ _
  · intro f s' h
    simp at h
    exact ⟨_, _, h.1.symm⟩

/-- A text raises `PixelRange` or `GlyphRange`, the latter with a codepoint above 126. -/
theorem textLoop_raises {t : Nat} {v : Pixel} {x scale : Int} {ps : List Word} {i : Nat} {cx cy : Int} {s s' : State} {f : Raise}
    (h : textLoop t v x scale ps i cx cy s = .raised f s') :
    (∃ x y, f = .pixelRange x y) ∨ ∃ p k, f = .glyphRange p k ∧ 126 < p ∧ p < 2 ^ 32 := by
  induction ps generalizing i cx cy s with
  | nil => simp [textLoop] at h
  | cons p ps ih =>
    unfold textLoop at h
    split at h
    · split at h
      · next h2 =>
        simp at h
        exact .inr ⟨_, _, h.1.symm, h2, p.isLt⟩
      · cases hd : drawGlyph t v (glyphEntry s.cfg (u32 p - 32)) cx cy scale s with
        | done s2 => rw [hd] at h; exact ih h
        | raised g s2 =>
          rw [hd] at h
          simp only [Drawn.andThen, Drawn.raised.injEq] at h
          exact .inl (h.1 ▸ onlyPixelRange_drawGlyph _ _ _ _ _ _ _ _ _ hd)
    · split at h
      · exact ih h
      · split at h <;> exact ih h

/-! ### The ends of a command -/

/-- The fault is one that the command can raise (60_exceptions.md R266, R267). -/
def CanRaise (i : Instr) (f : Raise) : Prop :=
  (∃ x y, f = .pixelRange x y ∧ i.opc ∈ pixelOpcodes) ∨
    ∃ p k, f = .glyphRange p k ∧ i.opc = opcRDrawText ∧ 126 < p ∧ p < 2 ^ 32

/-- The states that command `i` can leave when it begins in `s`. -/
inductive Effect (i : Instr) (s : State) : State → Prop
  /-- An error: only the response. -/
  | error (c : Code) (h : c = .unsupported ∨ c = .invalidArgument ∨ c = .notImplemented ∨ c = .illegalCommand ∨ c = .faulted) :
    Effect i s (s.respond c 0)
  /-- OK with a value, nothing changed. -/
  | value (v : Word) (h : ¬ ReturnsValue i → v = 0) : Effect i s (s.respond .ok v)
  /-- OK with one event. -/
  | event (e : Event) (h : WritesOut i) : Effect i s ((s.emit e).respond .ok 0)
  /-- OK with the surface cleared. -/
  | clear (h : WritesBuffer i) (hr : s.Ready i.surf) : Effect i s ((s.bulkClear i.surf.toNat).respond .ok 0)
  /-- OK with pixels of the surface written. -/
  | drawn (s' : State) (h : WritesBuffer i) (hr : s.Ready i.surf) (ho : OnlyBuf i.surf.toNat s s') :
    Effect i s (s'.respond .ok 0)
  /-- Fault entry, with the pixels written before it. -/
  | fault (f : Raise) (s' : State) (h : WritesBuffer i ∨ s' = s) (hr : s.Ready i.surf) (ho : OnlyBuf i.surf.toNat s s')
    (hf : CanRaise i f) : Effect i s (takeFault i.header f s')

theorem finish_effect {i : Instr} {s : State} {d : Drawn} (hr : s.Ready i.surf) (hw : WritesBuffer i)
    (ho : OnlyBuf i.surf.toNat s d.state) (hf : ∀ f s', d = .raised f s' → CanRaise i f) :
    ∃ s', finish i.header d = .next s' ∧ Effect i s s' := by
  rcases finish_cases i.header d with ⟨s', rfl, h⟩ | ⟨f, s', rfl, h⟩
  · exact ⟨_, h, .drawn s' hw hr ho⟩
  · exact ⟨_, h, .fault f s' (.inl hw) hr ho (hf f s' rfl)⟩

theorem finish_effect_pixel {i : Instr} {s : State} {d : Drawn} (hr : s.Ready i.surf) (hw : WritesBuffer i)
    (ho : OnlyBuf i.surf.toNat s d.state) (hp : i.opc ∈ pixelOpcodes) (hf : OnlyPixelRange d) :
    ∃ s', finish i.header d = .next s' ∧ Effect i s s' :=
  finish_effect hr hw ho fun f s' h => let ⟨x, y, e⟩ := hf f s' h; .inl ⟨x, y, e, hp⟩

theorem withOperands_effect {α : Type} {i : Instr} {t : Byte} {ops : Packed α} {s : State} {body : α → State → Result}
    (h : ∀ o, ops = .fields o → s.Ready t → ∃ s', body o s = .next s' ∧ Effect i s s') :
    ∃ s', withOperands t ops s body = .next s' ∧ Effect i s s' := by
  rcases withOperands_cases t ops s body with ⟨_, e⟩ | ⟨_, _, e⟩ | ⟨o, hr, ho, e⟩
  · exact ⟨_, e, .error _ (by simp)⟩
  · exact ⟨_, e, .error _ (by simp)⟩
  · rw [e]; exact h o ho hr

theorem notImplemented_effect (i : Instr) (t : Byte) (s : State) :
    ∃ s', onSurface t s (raiseError .notImplemented) = .next s' ∧ Effect i s s' := by
  rcases onSurface_cases t s (raiseError .notImplemented) with ⟨_, e⟩ | ⟨_, _, e⟩ | ⟨_, e⟩ <;>
    exact ⟨_, e, .error _ (by simp)⟩

theorem getPixelOp_effect {i : Instr} {t : Byte} {s : State} (hs : i.surf = t) (a : Byte) (o : PointOps) (hv : ReturnsValue i)
    (hp : i.opc ∈ pixelOpcodes) (hr : s.Ready t) : ∃ s', getPixelOp i.header t a o s = .next s' ∧ Effect i s s' := by
  unfold getPixelOp
  rcases pixRead_cases t.toNat (s32 o.x) (s32 o.y) s with ⟨_, e⟩ | ⟨_, e⟩ <;> rw [e]
  · exact ⟨_, rfl, .value _ (fun h => absurd hv h)⟩
  · exact ⟨_, rfl, .fault _ s (.inr rfl) (hs ▸ hr) ((onlyBuf_closed _).refl s) (.inl ⟨_, _, rfl, hp⟩)⟩

theorem setPixelOp_effect {i : Instr} {t : Byte} {s : State} (hs : i.surf = t) (o : PixelOps) (hw : WritesBuffer i)
    (hp : i.opc ∈ pixelOpcodes) (hr : s.Ready t) : ∃ s', setPixelOp i.header t o s = .next s' ∧ Effect i s s' := by
  subst hs
  exact finish_effect_pixel hr hw (pixWrite_rel (onlyBuf_closed _) _ _ _ s) hp (onlyPixelRange_pixWrite _ _ _ _ _)

theorem TextOps.length_words (o : TextOps) : o.words.length = 6 + o.text.length := by
  simp [TextOps.words]; omega

/-- Every command, on every state, answers a next state, and it is one of those of `Effect`. -/
theorem exec_effect (i : Instr) (s : State) : ∃ s', exec i s = .next s' ∧ Effect i s s' := by
  cases i with
  | dtGetPixel t o =>
    refine withOperands_effect fun o ho hr => ?_
    subst ho
    exact getPixelOp_effect (i := .dtGetPixel t (.fields o)) rfl _ _ trivial (by simp [Instr.opc]; decide) hr
  | rGetPixel t o =>
    refine withOperands_effect fun o ho hr => ?_
    subst ho
    exact getPixelOp_effect (i := .rGetPixel t (.fields o)) rfl _ _ trivial (by simp [Instr.opc]; decide) hr
  | dtSetPixel t o =>
    refine withOperands_effect fun o ho hr => ?_
    subst ho
    exact setPixelOp_effect (i := .dtSetPixel t (.fields o)) rfl _ trivial (by simp [Instr.opc]; decide) hr
  | rSetPixel t o =>
    refine withOperands_effect fun o ho hr => ?_
    subst ho
    exact setPixelOp_effect (i := .rSetPixel t (.fields o)) rfl _ trivial (by simp [Instr.opc]; decide) hr
  | dtClear t o =>
    refine withOperands_effect fun o ho hr => ?_
    split
    · exact ⟨_, rfl, .clear trivial hr⟩
    · exact ⟨_, rfl, .error _ (by simp)⟩
  | rClear t o => exact withOperands_effect fun o ho hr => ⟨_, rfl, .clear trivial hr⟩
  | dtGetData t o => exact withOperands_effect fun o ho hr => ⟨_, rfl, .value _ (fun h => absurd trivial h)⟩
  | dtWidth t o => exact withOperands_effect fun o ho hr => ⟨_, rfl, .value _ (fun h => absurd trivial h)⟩
  | dtHeight t o => exact withOperands_effect fun o ho hr => ⟨_, rfl, .value _ (fun h => absurd trivial h)⟩
  | rGetBitmap t o => exact withOperands_effect fun o ho hr => ⟨_, rfl, .value _ (fun h => absurd trivial h)⟩
  | rWidth t o => exact withOperands_effect fun o ho hr => ⟨_, rfl, .value _ (fun h => absurd trivial h)⟩
  | rHeight t o => exact withOperands_effect fun o ho hr => ⟨_, rfl, .value _ (fun h => absurd trivial h)⟩
  | dtFlush t o => exact withOperands_effect fun o ho hr => ⟨_, rfl, .event _ trivial⟩
  | rFlush t o => exact withOperands_effect fun o ho hr => ⟨_, rfl, .event _ trivial⟩
  | dtDispose t o => exact withOperands_effect fun o ho hr => ⟨_, rfl, .value _ (fun _ => rfl)⟩
  | rDrawEllipse t ws => exact notImplemented_effect _ t s
  | rDrawTextInRect t ws => exact notImplemented_effect _ t s
  | rDrawLine t o =>
    refine withOperands_effect fun o ho hr => ?_
    subst ho
    split
    · exact ⟨_, rfl, .error _ (by simp)⟩
    · exact finish_effect_pixel (i := .rDrawLine t (.fields o)) hr trivial (line_rel (onlyBuf_closed _) _ _ _ _ _ s)
        (by simp [Instr.opc]; decide) (onlyPixelRange_line _ _ _ _ _ _ _)
  | rDrawRect t o =>
    refine withOperands_effect fun o ho hr => ?_
    subst ho
    split
    · exact ⟨_, rfl, .error _ (by simp)⟩
    · split
      · exact ⟨_, rfl, .value _ (fun _ => rfl)⟩
      · exact finish_effect_pixel (i := .rDrawRect t (.fields o)) hr trivial (rectOutline_rel (onlyBuf_closed _) _ _ _ _ _ s)
          (by simp [Instr.opc]; decide) (onlyPixelRange_rectOutline _ _ _ _ _ _ _)
  | rDrawText t o =>
    refine withOperands_effect fun o ho hr => ?_
    subst ho
    split
    · exact ⟨_, rfl, .error _ (by simp)⟩
    · split
      · exact ⟨_, rfl, .error _ (by simp)⟩
      · split
        · exact ⟨_, rfl, .error _ (by simp)⟩
        · rw [← TextOps.length_words]
          refine finish_effect (i := .rDrawText t (.fields o)) hr trivial (textLoop_rel (onlyBuf_closed _) _ _ _ _ _ _ _ s) ?_
          intro f s' h
          rcases textLoop_raises h with ⟨x, y, e⟩ | ⟨p, k, e, h1, h2⟩
          · exact .inl ⟨x, y, e, by simp [Instr.opc]; decide⟩
          · exact .inr ⟨p, k, e, rfl, h1, h2⟩
  | rStretchImage t o =>
    refine withOperands_effect fun o ho hr => ?_
    subst ho
    split
    · exact ⟨_, rfl, .error _ (by simp)⟩
    · split
      · exact finish_effect_pixel (i := .rStretchImage t (.fields o)) hr trivial (copyRect_rel (onlyBuf_closed _) _ _ _ s)
          (by simp [Instr.opc]; decide) (onlyPixelRange_copyRect _ _ _ _ _)
      · exact ⟨_, rfl, .error _ (by simp)⟩
  | sysRdReg t o =>
    cases o with
    | otherLen ws => exact ⟨_, rfl, .error _ (by simp)⟩
    | fields n =>
      simp only [exec, execSysRdReg]
      split
      · exact ⟨_, rfl, .error _ (by simp)⟩
      · exact ⟨_, rfl, .value _ (fun h => absurd trivial h)⟩

/-- The effect of a command that answered `s'`. -/
theorem Effect.of_exec {i : Instr} {s s' : State} (h : exec i s = .next s') : Effect i s s' := by
  obtain ⟨t, e, ht⟩ := exec_effect i s
  rw [e] at h
  cases h
  exact ht

end Sys2Proof.Machine
end

