-- ==== Sys2Proof/Laws/PerInstr.lean ====
section
/-! SUPPORT. Per-command statements: the header of a well-formed command's packet holds its opcode, its surface and its LEN. -/

namespace Sys2Proof.Laws.HeaderFields

open Sys2Proof

/-- The three fields of the packet's header (30_encoding.md R81). -/
def Statement (i : Instr) : Prop :=
  i.WellFormed →
    headerOpc i.header = i.opc ∧ headerSurf i.header = i.surf ∧ headerLen i.header = i.operandWords.length

theorem of_any (i : Instr) : Statement i := fun h =>
  ⟨headerOpc_headerWord _ _ _, headerSurf_headerWord _ _ _, headerLen_headerWord _ _ (Instr.length_le h)⟩

theorem dtGetPixel (surf : Byte) (ops : Packed PointOps) : Statement (.dtGetPixel surf ops) := of_any _
theorem dtSetPixel (surf : Byte) (ops : Packed PixelOps) : Statement (.dtSetPixel surf ops) := of_any _
theorem dtClear (surf : Byte) (ops : Packed Word) : Statement (.dtClear surf ops) := of_any _
theorem dtGetData (surf : Byte) (ops : Packed Unit) : Statement (.dtGetData surf ops) := of_any _
theorem dtFlush (surf : Byte) (ops : Packed Unit) : Statement (.dtFlush surf ops) := of_any _
theorem dtDispose (surf : Byte) (ops : Packed Unit) : Statement (.dtDispose surf ops) := of_any _
theorem dtWidth (surf : Byte) (ops : Packed Unit) : Statement (.dtWidth surf ops) := of_any _
theorem dtHeight (surf : Byte) (ops : Packed Unit) : Statement (.dtHeight surf ops) := of_any _
theorem rClear (surf : Byte) (ops : Packed Unit) : Statement (.rClear surf ops) := of_any _
theorem rGetPixel (surf : Byte) (ops : Packed PointOps) : Statement (.rGetPixel surf ops) := of_any _
theorem rSetPixel (surf : Byte) (ops : Packed PixelOps) : Statement (.rSetPixel surf ops) := of_any _
theorem rDrawLine (surf : Byte) (ops : Packed LineOps) : Statement (.rDrawLine surf ops) := of_any _
theorem rDrawRect (surf : Byte) (ops : Packed RectOps) : Statement (.rDrawRect surf ops) := of_any _
theorem rDrawEllipse (surf : Byte) (words : List Word) : Statement (.rDrawEllipse surf words) := of_any _
theorem rDrawText (surf : Byte) (ops : Packed TextOps) : Statement (.rDrawText surf ops) := of_any _
theorem rDrawTextInRect (surf : Byte) (words : List Word) : Statement (.rDrawTextInRect surf words) := of_any _
theorem rStretchImage (surf : Byte) (ops : Packed BlitOps) : Statement (.rStretchImage surf ops) := of_any _
theorem rGetBitmap (surf : Byte) (ops : Packed Unit) : Statement (.rGetBitmap surf ops) := of_any _
theorem rFlush (surf : Byte) (ops : Packed Word) : Statement (.rFlush surf ops) := of_any _
theorem rWidth (surf : Byte) (ops : Packed Unit) : Statement (.rWidth surf ops) := of_any _
theorem rHeight (surf : Byte) (ops : Packed Unit) : Statement (.rHeight surf ops) := of_any _
theorem sysRdReg (surf : Byte) (ops : Packed Word) : Statement (.sysRdReg surf ops) := of_any _

end Sys2Proof.Laws.HeaderFields
end

