-- ==== Sys2Proof/Tests/Slice0.lean ====
section
/-! SUPPORT. The model's own tests: the well-formedness smoke, decoding of words written out from the spec, one step each on small
states (expected results from the spec's rules, examples and vectors), and a witness that meets the hypotheses of each
statement. -/

namespace Sys2Proof.Tests

open Sys2Proof Sys2Proof.Machine

set_option Elab.async false

/-! ### The small machine -/

/-- Four surfaces: s0 of 5×7 pixels, all bytes 0x5A; s1 of 2×2, s2 of 1×2 and s3 of 2×1, with bytes 1, 2, 3 and on. OPAQUE 0xFF. -/
def cfg : Config :=
  { surfaces := [⟨5, 7, List.replicate 70 0x5A⟩, ⟨2, 2, [1, 2, 3, 4, 5, 6, 7, 8]⟩, ⟨1, 2, [9, 10, 11, 12]⟩,
      ⟨2, 1, [13, 14, 15, 16]⟩]
    glyphs := Config.glyphsOfA
    fullOpacity := 0xFF
    alphaOut := 0xFE }

/-- Right after reset. -/
def st : State := State.resetWith cfg

/-- A machine that has faulted at pixel (8, 0) on a line of surface 0 (42_line.md R175's example, STATUS by R269). -/
def faulted : State := { st with status := 0x501, finfo0 := 8, fcmd := 0x00060013 }

/-- The state a result leaves, if it is a next state. -/
def after : Result → Option State
  | .next s => some s
  | .fault _ => none
  | .refused _ => none

/-- The responses after one command in `s`. -/
def answers (i : Instr) (s : State) : Option (List Response) := (after (exec i s)).map (·.resp)

/-- A byte of a buffer after one command in `s`. -/
def byteAfter (i : Instr) (s : State) (t o : Nat) : Option Byte := (after (exec i s)).map (·.readByte t o)

/-- `cr[0]` to `cr[3]` after one command in `s`. -/
def recordAfter (i : Instr) (s : State) : Option (List Word) :=
  (after (exec i s)).map (fun s => [s.status, s.finfo0, s.finfo1, s.fcmd])

/-! ### Well-formedness: each check refuses an ill-formed term -/

theorem test_wf_refuses_n : (Instr.dtFlush 0 (.otherLen [])).wf = false := by decide
theorem test_wf_refuses_c : (Instr.dtClear 0 (.otherLen [0])).wf = false := by decide
theorem test_wf_refuses_h : (Instr.rFlush 0 (.otherLen [0])).wf = false := by decide
theorem test_wf_refuses_g : (Instr.sysRdReg 0 (.otherLen [0])).wf = false := by decide
theorem test_wf_refuses_p : (Instr.dtGetPixel 0 (.otherLen [0, 0])).wf = false := by decide
theorem test_wf_refuses_pc : (Instr.rSetPixel 0 (.otherLen [0, 0, 0])).wf = false := by decide
theorem test_wf_refuses_l : (Instr.rDrawLine 0 (.otherLen (List.replicate 6 0))).wf = false := by decide
theorem test_wf_refuses_r : (Instr.rDrawRect 0 (.otherLen (List.replicate 9 0))).wf = false := by decide
theorem test_wf_refuses_b : (Instr.rStretchImage 0 (.otherLen (List.replicate 10 0))).wf = false := by decide
theorem test_wf_refuses_t : (Instr.rDrawText 0 (.otherLen (List.replicate 6 0))).wf = false := by decide
theorem test_wf_refuses_long_t :
    (Instr.rDrawText 0 (.fields ⟨3, 0, 8, 0, 0, 0, List.replicate 65530 0⟩)).wf = false := by
  simp only [Instr.wf, Packed.wfText, List.length_replicate, maxLen]; decide
theorem test_wf_refuses_long_v : (Instr.rDrawEllipse 0 (List.replicate 65536 0)).wf = false := by
  simp only [Instr.wf, List.length_replicate, maxLen]; decide
theorem test_wf_refuses_long_other : (Instr.dtWidth 0 (.otherLen (List.replicate 65536 0))).wf = false := by
  simp only [Instr.wf, Packed.wfExact, List.length_replicate, maxLen]; decide
theorem test_wf_accepts_other_len : (Instr.dtWidth 0 (.otherLen [0])).wf = true := by decide

/-! ### Decoding: words from the spec's encodings, OPC 7:0, SURF 15:8, LEN 31:16 (30_encoding.md R81, R85, R88) -/

/-- What the decoder makes of a list of words. -/
def decoded (ws : List Word) : Option Instr :=
  match decode ws with
  | .ok (i, []) => some i
  | .ok (_, _ :: _) => none
  | .error _ => none

theorem test_decode_dtGetPixel : decoded [0b0000000000000010_00000011_00000001, 0xFFFFFFFF, 1] =
    some (.dtGetPixel 3 (.fields ⟨0xFFFFFFFF, 1⟩)) := by decide
theorem test_decode_dtSetPixel : decoded [0x00030002, 2, 1, 0x00123456] =
    some (.dtSetPixel 0 (.fields ⟨2, 1, 0x00123456⟩)) := by decide
theorem test_decode_dtClear : decoded [0x00010003, 0x00000001] = some (.dtClear 0 (.fields 1)) := by decide
theorem test_decode_dtGetData : decoded [0x00000004] = some (.dtGetData 0 (.fields ())) := by decide
theorem test_decode_dtFlush : decoded [0x0000FF05] = some (.dtFlush 0xFF (.fields ())) := by decide
theorem test_decode_dtDispose : decoded [0x00000006] = some (.dtDispose 0 (.fields ())) := by decide
theorem test_decode_dtWidth : decoded [0x00010007, 9] = some (.dtWidth 0 (.otherLen [9])) := by decide
theorem test_decode_dtHeight : decoded [0x00000108] = some (.dtHeight 1 (.fields ())) := by decide
theorem test_decode_rClear : decoded [0x00000010] = some (.rClear 0 (.fields ())) := by decide
theorem test_decode_rGetPixel : decoded [0x00020011, 2, 1] = some (.rGetPixel 0 (.fields ⟨2, 1⟩)) := by decide
theorem test_decode_rSetPixel : decoded [0x00030012, 2, 1, 0x80FF8040] =
    some (.rSetPixel 0 (.fields ⟨2, 1, 0x80FF8040⟩)) := by decide
theorem test_decode_rDrawLine : decoded [0b0000000000000110_00000000_00010011, 0x00FF0000, 1, 10, 11, 12, 13] =
    some (.rDrawLine 0 (.fields ⟨0x00FF0000, 1, 10, 11, 12, 13⟩)) := by decide
theorem test_decode_rDrawRect : decoded [0x00090014, 0x00FFFFFF, 1, 2, 3, 5, 4, 6, 7, 0xFF] =
    some (.rDrawRect 0 (.fields ⟨0x00FFFFFF, 1, 2, 3, 5, 4, 6, 7, 0xFF⟩)) := by decide
theorem test_decode_rDrawEllipse : decoded [0x00020015, 1, 2] = some (.rDrawEllipse 0 [1, 2]) := by decide
theorem test_decode_rDrawText : decoded [0x00080016, 3, 0, 8, 0x00FFFFFF, 4, 5, 0x41, 0x42] =
    some (.rDrawText 0 (.fields ⟨3, 0, 8, 0x00FFFFFF, 4, 5, [0x41, 0x42]⟩)) := by decide
theorem test_decode_rDrawTextInRect : decoded [0x00000017] = some (.rDrawTextInRect 0 []) := by decide
theorem test_decode_rStretchImage : decoded [0x000A0118, 0, 1, 8, 9, 2, 3, 4, 5, 6, 0xFF] =
    some (.rStretchImage 1 (.fields ⟨0, 1, 8, 9, 2, 3, 4, 5, 6, 0xFF⟩)) := by decide
theorem test_decode_rGetBitmap : decoded [0x00000019] = some (.rGetBitmap 0 (.fields ())) := by decide
theorem test_decode_rFlush : decoded [0x0001001A, 0x1234] = some (.rFlush 0 (.fields 0x1234)) := by decide
theorem test_decode_rWidth : decoded [0x0000001B] = some (.rWidth 0 (.fields ())) := by decide
theorem test_decode_rHeight : decoded [0x0000001C] = some (.rHeight 0 (.fields ())) := by decide
theorem test_decode_sysRdReg : decoded [0b0000000000000001_11111111_00100000, 4] =
    some (.sysRdReg 0xFF (.fields 4)) := by decide
/-- 30_encoding.md R90: the reserved opcodes next to legal ones. -/
theorem test_decode_reserved : [0x00, 0x09, 0x0F, 0x1D, 0x1F, 0x21, 0xFF].all (fun w => decoded [w] = none) = true := by decide
/-- 30_encoding.md R80: an incomplete packet is none, and a following packet is left alone. -/
theorem test_decode_incomplete : decode [0x00020001, 5] = .error .incomplete := by decide
theorem test_decode_rest : decode [0x00000005, 0x00000006] = .ok (.dtFlush 0 (.fields ()), [0x00000006]) := by decide
/-- A table row's bits: the header alone, and a header with one operand word above it. -/
theorem test_table_word : decodeTableWord 32 0x00000007 = some (.dtWidth 0 (.fields ())) := by decide
theorem test_table_word_operand : decodeTableWord 64 0x000012340001001A = some (.rFlush 0 (.fields 0x1234)) := by decide

/-! ### Steps -/

/-- 40_drawtarget.md R120's example: bytes 0x11 0xAA read as 0x00103450 (at pixel (0, 0) here). -/
theorem test_dtGetPixel : answers (.dtGetPixel 0 (.fields ⟨0, 0⟩)) ((st.writeByte 0 0 0x11).writeByte 0 1 0xAA) =
    some [⟨0, 0x00103450⟩] := by decide +kernel
/-- 60_exceptions.md R266, R269: x = −1 does not wrap. -/
theorem test_dtGetPixel_range : recordAfter (.dtGetPixel 0 (.fields ⟨0xFFFFFFFF, 3⟩)) st =
    some [0x501, 0xFFFFFFFF, 3, 0x00020001] := by decide +kernel
/-- 40_drawtarget.md R121's example, high byte first: the last pixel of s0, offsets 68 and 69. -/
theorem test_dtSetPixel : byteAfter (.dtSetPixel 0 (.fields ⟨4, 6, 0x00123456⟩)) st 0 68 = some 0x11 := by decide +kernel
theorem test_dtSetPixel_low : byteAfter (.dtSetPixel 0 (.fields ⟨4, 6, 0x00123456⟩)) st 0 69 = some 0xAA := by decide +kernel
/-- 40_drawtarget.md R122: alpha is ignored, and black is tested before truncation. -/
theorem test_dtClear : byteAfter (.dtClear 1 (.fields 0xFF000000)) st 1 7 = some 0 := by decide +kernel
theorem test_dtClear_not_black : answers (.dtClear 1 (.fields 0x00070307)) st = some [⟨1, 0⟩] := by decide +kernel
theorem test_dtGetData : answers (.dtGetData 0 (.fields ())) st = some [⟨0, 70⟩] := by decide +kernel
/-- 60_exceptions.md R272: LEN before SURF, and `Faulted` before both. -/
theorem test_dtGetData_faulted : answers (.dtGetData 9 (.otherLen [0])) faulted = some [⟨7, 0⟩] := by decide +kernel
theorem test_dtFlush : (after (exec (.dtFlush 2 (.fields ())) st)).map (·.out) = some [.dtFlush 2] := by decide +kernel
theorem test_dtFlush_no_surface : answers (.dtFlush 4 (.fields ())) st = some [⟨4, 0⟩] := by decide +kernel
theorem test_dtDispose : answers (.dtDispose 3 (.fields ())) st = some [⟨0, 0⟩] := by decide +kernel
theorem test_dtWidth : answers (.dtWidth 3 (.fields ())) st = some [⟨0, 2⟩] := by decide +kernel
theorem test_dtHeight : answers (.dtHeight 3 (.fields ())) st = some [⟨0, 1⟩] := by decide +kernel
theorem test_rClear : byteAfter (.rClear 0 (.fields ())) st 0 69 = some 0 := by decide +kernel
theorem test_rClear_others : byteAfter (.rClear 0 (.fields ())) st 1 0 = some 1 := by decide +kernel
/-- 41_renderer_pixel.md R151: the alpha parameter on top; bytes 1, 2 decode to (0, 0x20, 0x10). -/
theorem test_rGetPixel : answers (.rGetPixel 1 (.fields ⟨0, 0⟩)) st = some [⟨0, 0xFE002010⟩] := by decide +kernel
/-- 41_renderer_pixel.md R152's example: 0x80FF8040 writes 0xFC08. -/
theorem test_rSetPixel : byteAfter (.rSetPixel 1 (.fields ⟨1, 1, 0x80FF8040⟩)) st 1 6 = some 0xFC := by decide +kernel
theorem test_rSetPixel_low : byteAfter (.rSetPixel 1 (.fields ⟨1, 1, 0x80FF8040⟩)) st 1 7 = some 0x08 := by decide +kernel
/-- 42_line.md R170's example plots (0,0), (1,1), (2,1), (3,2), (4,2): (1,1) is at offset 12, (1,0) at offset 2. -/
theorem test_rDrawLine : byteAfter (.rDrawLine 0 (.fields ⟨0x00FF0000, 1, 0, 0, 4, 2⟩)) st 0 12 = some 0xF8 := by decide +kernel
theorem test_rDrawLine_off : recordAfter (.rDrawLine 0 (.fields ⟨0x00FFFFFF, 1, 3, 0, 6, 0⟩)) st =
    some [0x501, 5, 0, 0x00060013] := by decide +kernel
/-- 43_rectangle_ellipse.md R191: the right column is at x + width − 1, and the interior is untouched. -/
theorem test_rDrawRect : byteAfter (.rDrawRect 0 (.fields ⟨0x00FFFFFF, 1, 1, 1, 3, 3, 9, 9, 0xFF⟩)) st 0 26 = some 0xFF := by
  decide +kernel
theorem test_rDrawRect_interior :
    byteAfter (.rDrawRect 0 (.fields ⟨0x00FFFFFF, 1, 1, 1, 3, 3, 9, 9, 0xFF⟩)) st 0 24 = some 0x5A := by decide +kernel
theorem test_rDrawEllipse : answers (.rDrawEllipse 0 [1, 2]) st = some [⟨3, 0⟩] := by decide +kernel
/-- 44_text.md R207, R208: glyph 33, column 0 is 0x7E: row 0 unlit, row 1 lit (offset 10). -/
theorem test_rDrawText : byteAfter (.rDrawText 0 (.fields ⟨3, 0, 8, 0x00FFFFFF, 0, 0, [0x41]⟩)) st 0 10 = some 0xFF := by
  decide +kernel
/-- 43_rectangle_ellipse.md R190, R193: top row, bottom row, left column, right column. -/
theorem test_rect_order : rectPixels 2 2 3 2 = [(2, 2), (3, 2), (4, 2), (2, 3), (3, 3), (4, 3), (2, 2), (2, 3), (4, 2), (4, 3)] := by
  decide +kernel
/-- 44_text.md R208 in scale 2, column 0 of glyph 33 (0x7E, rows 1 to 6): all rows for the first replicated column, then the second. -/
theorem test_glyph_order : (glyphPixels [0x7E, 0x11, 0x11, 0x11, 0x7E] 0 0 2).take 14 =
    [(0, 2), (0, 3), (0, 4), (0, 5), (0, 6), (0, 7), (0, 8), (0, 9), (0, 10), (0, 11), (0, 12), (0, 13), (1, 2), (1, 3)] := by
  decide +kernel
/-- 60_exceptions.md R272 item 5: a pixel out of range comes before a later codepoint above 126, and the pixels before it stay. -/
theorem test_rDrawText_pixel_first : recordAfter (.rDrawText 0 (.fields ⟨3, 0, 8, 0, 0, 0xFFFFFFFF, [0x41, 0x7F]⟩)) st =
    some [0x501, 1, 0xFFFFFFFF, 0x00080016] := by decide +kernel
/-- 60_exceptions.md R267: the codepoint and its index. -/
theorem test_rDrawText_range : recordAfter (.rDrawText 0 (.fields ⟨3, 0, 0, 0, 0, 0, [0x41, 10, 0x7F]⟩)) st =
    some [0x601, 0x7F, 2, 0x00090016] := by decide +kernel
theorem test_rDrawTextInRect : answers (.rDrawTextInRect 0 []) st = some [⟨3, 0⟩] := by decide +kernel
/-- 45_blit.md R235, R238: the copy lands at the source's own coordinates; pixel (1, 1) of s1 at offset 12 of s0. -/
theorem test_rStretchImage : byteAfter (.rStretchImage 0 (.fields ⟨7, 7, 2, 2, 1, 0, 0, 2, 2, 0xFF⟩)) st 0 12 = some 7 := by
  decide +kernel
theorem test_rStretchImage_narrow : recordAfter (.rStretchImage 2 (.fields ⟨0, 0, 2, 2, 1, 0, 0, 2, 2, 0xFF⟩)) st =
    some [0x501, 1, 0, 0x000A0218] := by decide +kernel
theorem test_rGetBitmap : answers (.rGetBitmap 1 (.fields ())) st = some [⟨0, 8⟩] := by decide +kernel
theorem test_rFlush : (after (exec (.rFlush 1 (.fields 0x1234)) st)).map (·.out) = some [.rFlush 1 0x1234] := by decide +kernel
theorem test_rWidth : answers (.rWidth 2 (.fields ())) st = some [⟨0, 1⟩] := by decide +kernel
theorem test_rHeight : answers (.rHeight 2 (.fields ())) st = some [⟨0, 2⟩] := by decide +kernel
/-- 46_system.md R250: it runs while FAULT = 1 with any SURF; register 5 does not exist. -/
theorem test_sysRdReg : answers (.sysRdReg 0xFF (.fields 3)) faulted = some [⟨0, 0x00060013⟩] := by decide +kernel
theorem test_sysRdReg_none : answers (.sysRdReg 0 (.fields 5)) st = some [⟨4, 0⟩] := by decide +kernel
/-- 30_encoding.md R90: the words of a reserved opcode are consumed, so the next packet starts in the right place. -/
theorem test_step_reserved : (after (step (st.present [0x00010009, 7, 0x00000005]))).map (fun s => (s.port, s.resp)) =
    some ([0x00000005], [⟨4, 0⟩]) := by decide +kernel
theorem test_step_fetch_word : (after (step (State.reset.withFetchWord 32 0x00000008))).map (·.resp) =
    some [⟨0, 6⟩] := by decide +kernel

/-! ### Witnesses: states and operands that meet each statement's hypotheses -/

theorem ready0 : st.Ready 0 := ⟨by decide, by decide⟩
theorem ready1 : st.Ready 1 := ⟨by decide, by decide⟩
theorem ready2 : st.Ready 2 := ⟨by decide, by decide⟩
theorem ready3 : st.Ready 3 := ⟨by decide, by decide⟩
theorem bufs_ok : st.BufsOk := by unfold State.BufsOk; decide +kernel
theorem cfg_wf : st.cfg.wf = true := by decide +kernel

theorem witness_DecodeOfEncode : (Instr.rDrawText 0xFF (.fields ⟨3, 0, 8, 0, 0, 0, [0x41]⟩)).WellFormed ∧
    (Instr.rDrawText 0 (.otherLen (List.replicate 5 7))).WellFormed := by decide
theorem witness_EncodeOfDecode : decode [0x00000005, 0x00000006] = .ok (.dtFlush 0 (.fields ()), [0x00000006]) := by decide
/-- A first opcode, a last opcode, and the reserved ones beside them. -/
theorem witness_OpcodeSelectsCommand :
    let legal : List Byte := [0x01, 0x02, 0x03, 0x04, 0x05, 0x06, 0x07, 0x08, 0x10, 0x11, 0x12, 0x13, 0x14, 0x15, 0x16, 0x17,
      0x18, 0x19, 0x1A, 0x1B, 0x1C, 0x20]
    headerOpc 0x00000001 ∈ legal ∧ headerOpc 0x00000008 ∈ legal ∧ headerOpc 0x0000001C ∈ legal ∧ headerOpc 0x00000020 ∈ legal ∧
      headerOpc 0x00000000 ∉ legal ∧ headerOpc 0x00000009 ∉ legal ∧ headerOpc 0x0000001D ∉ legal ∧
      headerOpc 0x00000021 ∉ legal := by decide
theorem witness_StepRunsDecodedInstruction : (Instr.dtFlush 0 (.fields ())).WellFormed ∧
    (st.present [0x00000005, 6]).port = encode (.dtFlush 0 (.fields ())) ++ [6] := by decide
/-- No word at all, and one word short. -/
theorem witness_StepWaitsForMissingWords : st.port = [] ∧
    ∃ h ws, (st.present [0x00020001, 5]).port = h :: ws ∧ ws.length < (h.extractLsb' 16 16).toNat :=
  ⟨rfl, 0x00020001, [5], rfl, by decide⟩
theorem witness_ReservedOpcodeConsumedAndRejected : ∃ (s : State) (h : Word) (ops rest : List Word),
    s.port = h :: (ops ++ rest) ∧ (h.extractLsb' 16 16).toNat = ops.length ∧
    h.extractLsb' 0 8 ∉ ([0x01, 0x02, 0x03, 0x04, 0x05, 0x06, 0x07, 0x08, 0x10, 0x11, 0x12, 0x13, 0x14, 0x15, 0x16, 0x17,
        0x18, 0x19, 0x1A, 0x1B, 0x1C, 0x20] : List Byte) :=
  ⟨st.present [0x00010009, 7, 5], 0x00010009, [7], [5], by decide, by decide, by decide⟩
theorem witness_ColourConversionLaws : st.Ready 0 ∧ st.BufsOk ∧
    inRange st.cfg 0 (4 : Word).toInt (6 : Word).toInt = true ∧ (0x00F8FCF8 : Word) &&& 0xFF070307 = 0 :=
  ⟨ready0, bufs_ok, by decide, by decide⟩
/-- The first and the last pixel, and the two neighbours of a pixel. -/
theorem witness_PixelsAreAlignedAndDisjoint : 0 < cfg.width 0 ∧ 4 < cfg.width 0 ∧ 0 < cfg.height 0 ∧ 6 < cfg.height 0 ∧
    ((4, 6) : Nat × Nat) ≠ (3, 6) ∧ ((4, 6) : Nat × Nat) ≠ (4, 5) := by decide
/-- The last pixel is in range; the pixel right of it, the one below it and the one at −1 are not. -/
theorem witness_PixReadIsChecked : 0 < st.cfg.nsurf ∧
    ((0 : Int) ≤ 4 ∧ (4 : Int) < st.cfg.width 0 ∧ (0 : Int) ≤ 6 ∧ (6 : Int) < st.cfg.height 0) ∧
    ¬ (5 : Int) < st.cfg.width 0 ∧ ¬ (7 : Int) < st.cfg.height 0 ∧ ¬ (0 : Int) ≤ -1 := by decide
theorem witness_PixWriteStoresTwoBytes : st.BufsOk ∧ 3 < st.cfg.nsurf ∧
    ((0 : Int) ≤ 1 ∧ (1 : Int) < st.cfg.width 3 ∧ (0 : Int) ≤ 0 ∧ (0 : Int) < st.cfg.height 3) ∧
    ¬ (2 : Int) < st.cfg.width 3 ∧ ¬ (1 : Int) < st.cfg.height 3 := ⟨bufs_ok, by decide⟩
theorem witness_BulkClearZeroesSurface : st.BufsOk ∧ 3 < st.cfg.nsurf := ⟨bufs_ok, by decide⟩
/-- The last byte, the byte after it, and a surface that does not exist. -/
theorem witness_TransferPortShowsBuffer : (0 < st.cfg.nsurf ∧ 69 < st.cfg.width 0 * st.cfg.height 0 * 2) ∧
    ¬ 70 < st.cfg.width 0 * st.cfg.height 0 * 2 ∧ ¬ 4 < st.cfg.nsurf ∧ faulted.cfg = st.cfg ∧ faulted.bufs = st.bufs := by
  decide +kernel
theorem witness_EqualContentsAreEqualData : Memory.wf [7, 7] 2 (Memory.write [7, 7] [] 1 9) = true ∧
    Memory.wf [7, 7] 2 [(1, 9)] = true ∧ ∀ o, Memory.read [7, 7] (Memory.write [7, 7] [] 1 9) o = Memory.read [7, 7] [(1, 9)] o :=
  ⟨by decide, by decide, fun _ => rfl⟩
theorem witness_GetPixelReturnsColour : st.Ready 0 ∧ inRange st.cfg 0 (4 : Word).toInt (6 : Word).toInt = true :=
  ⟨ready0, by decide⟩
theorem witness_SetPixelWritesPixel : st.Ready 0 ∧ st.BufsOk ∧ inRange st.cfg 0 (4 : Word).toInt (6 : Word).toInt = true :=
  ⟨ready0, bufs_ok, by decide⟩
/-- Just outside on each of the four sides. -/
theorem witness_PixelCommandsFaultOutOfRange : st.Ready 0 ∧
    inRange st.cfg 0 (5 : Word).toInt (6 : Word).toInt = false ∧ inRange st.cfg 0 (4 : Word).toInt (7 : Word).toInt = false ∧
    inRange st.cfg 0 (0xFFFFFFFF : Word).toInt 0 = false ∧ inRange st.cfg 0 0 (0xFFFFFFFF : Word).toInt = false :=
  ⟨ready0, by decide⟩
theorem witness_ClearZeroesSurface : (0xFF000000 : Word) &&& 0x00FFFFFF = 0 ∧ st.Ready 3 ∧ st.BufsOk :=
  ⟨by decide, ready3, bufs_ok⟩
theorem witness_SizeCommandsAnswerSizes : st.Ready 3 ∧ st.cfg.wf = true := ⟨ready3, cfg_wf⟩
theorem witness_FlushAppendsOneEvent : st.Ready 3 := ready3
theorem witness_DisposeChangesNothing : st.Ready 3 := ready3
/-- A line whose major axis is x, a line whose major axis is y, and a point. -/
theorem witness_LinePlotsClosedForm : 0 < max ((4 : Int) - 0).natAbs ((2 : Int) - 0).natAbs ∧
    linePixels 0 0 4 2 = [(0, 0), (1, 1), (2, 1), (3, 2), (4, 2)] ∧
    linePixels 2 4 1 0 = [(2, 4), (2, 3), (1, 2), (1, 1), (1, 0)] ∧ linePixels 3 3 3 3 = [(3, 3)] := by decide
theorem witness_DrawLinePaintsLine : st.Ready 0 ∧ st.BufsOk ∧ (1 : Word) = 1 ∧
    inRange st.cfg 0 (0 : Word).toInt (6 : Word).toInt = true ∧ inRange st.cfg 0 (4 : Word).toInt (0 : Word).toInt = true :=
  ⟨ready0, bufs_ok, rfl, by decide, by decide⟩
/-- The line (3, 0) to (6, 0) leaves the surface at its pixel 2; the line (−1, 0) to (0, 0) starts outside. -/
theorem witness_DrawLineStopsAtFirstOutside : ∃ (o o' : LineOps), st.Ready 0 ∧ st.BufsOk ∧ o.thickness = 1 ∧ o'.thickness = 1 ∧
    2 ≤ lineMajor o.x0.toInt o.y0.toInt o.x1.toInt o.y1.toInt ∧
    (∀ j, j < 2 → inRange st.cfg 0 (lineOpsPixel o j).1 (lineOpsPixel o j).2 = true) ∧
    inRange st.cfg 0 (lineOpsPixel o 2).1 (lineOpsPixel o 2).2 = false ∧
    inRange st.cfg 0 (lineOpsPixel o' 0).1 (lineOpsPixel o' 0).2 = false :=
  ⟨⟨0, 1, 3, 0, 6, 0⟩, ⟨0, 1, 0xFFFFFFFF, 0, 0, 0⟩, ready0, bufs_ok, rfl, rfl, by decide, by decide, by decide, by decide⟩
/-- The rectangle that is the whole surface. -/
theorem witness_DrawRectPaintsBorder : ∃ o : RectOps, st.Ready 0 ∧ st.BufsOk ∧ o.thickness = 1 ∧ o.opacity = st.cfg.fullOpacity ∧
    1 ≤ o.width.toInt ∧ 1 ≤ o.height.toInt ∧ 0 ≤ o.x.toInt ∧ 0 ≤ o.y.toInt ∧
    o.x.toInt + o.width.toInt ≤ st.cfg.width 0 ∧ o.y.toInt + o.height.toInt ≤ st.cfg.height 0 :=
  ⟨⟨0, 1, 0, 0, 5, 7, 0, 0, 0xFF⟩, ready0, bufs_ok, by decide⟩
/-- Width 0 with good parameters, height −1 with thickness 2. -/
theorem witness_EmptyRectDrawsNothing : st.Ready 0 ∧ (0 : Word).toInt ≤ 0 ∧ (0xFFFFFFFF : Word).toInt ≤ 0 ∧
    (0xFF : Word) = st.cfg.fullOpacity ∧ (2 : Word) ≠ 1 := ⟨ready0, by decide⟩
/-- One column too wide, and one pixel left of the surface. -/
theorem witness_DrawRectOffSurfaceFaults : ∃ o : RectOps, st.Ready 0 ∧ st.BufsOk ∧ o.thickness = 1 ∧
    o.opacity = st.cfg.fullOpacity ∧ 1 ≤ o.width.toInt ∧ 1 ≤ o.height.toInt ∧
    ¬ (0 ≤ o.x.toInt ∧ 0 ≤ o.y.toInt ∧ o.x.toInt + o.width.toInt ≤ st.cfg.width 0 ∧
      o.y.toInt + o.height.toInt ≤ st.cfg.height 0) :=
  ⟨⟨0, 1, 1, 0, 5, 7, 0, 0, 0xFF⟩, ready0, bufs_ok, by decide⟩

/-- In that rectangle the first pixel out of range is (5, 0), after the four of the top row on the surface; in one that begins a
pixel left of the surface it is the first pixel, (−1, 0). -/
theorem witness_DrawRectOffSurfaceFaults_first : FirstOutside st.cfg 0 (rectPixels 1 0 5 7) 4 (5, 0) ∧
    RectBorder 1 0 5 7 5 0 ∧ FirstOutside st.cfg 0 (rectPixels (-1) 0 5 7) 0 (-1, 0) :=
  ⟨⟨by decide +kernel, by decide, by decide +kernel⟩, by unfold RectBorder; decide,
    ⟨by decide +kernel, by decide, by decide +kernel⟩⟩

/-- The text "A" at (0, 0) in size 8 lights only pixels of the 5×7 block. -/
theorem a_fits : ∀ px py : Int, TextLights st.cfg [0x41] (0 : Word).toInt (0 : Word).toInt ((8 : Word).toInt / 8) px py →
    inRange st.cfg 0 px py = true := by
  intro px py h
  rw [show (0 : Word).toInt = 0 from by decide, show (8 : Word).toInt / 8 = 1 from by decide] at h
  obtain ⟨j, p, hp, -, c, r, hs, vs, hc, hr, h1, h2, hlit, rfl, rfl⟩ := h
  obtain rfl : hs = 0 := by omega
  obtain rfl : vs = 0 := by omega
  match j, hp with
  | 0, hp =>
    obtain rfl : (0x41 : Word) = p := by simpa using hp
    have hr7 : r ≠ 7 := by
      rintro rfl
      revert hlit
      revert c
      decide +kernel
    have hcol : textColumn [0x41] 0 = 0 := by decide
    have hrow : textRow [0x41] 0 = 0 := by decide
    have hw : st.cfg.width 0 = 5 := by decide
    have hh : st.cfg.height 0 = 7 := by decide
    simp only [inRange, hcol, hrow, hw, hh, Bool.and_eq_true, decide_eq_true_eq]
    omega
theorem witness_DrawTextPaintsLitPixels : ∃ o : TextOps, st.Ready 0 ∧ st.BufsOk ∧ o.tflags = 3 ∧ o.family = 0 ∧
    (∀ p ∈ o.text, p.toNat ≤ 126) ∧
    (∀ px py, TextLights st.cfg o.text o.x.toInt o.y.toInt (o.size.toInt / 8) px py → inRange st.cfg 0 px py = true) :=
  ⟨⟨3, 0, 8, 0, 0, 0, [0x41]⟩, ready0, bufs_ok, by decide, by decide, by simp, a_fits⟩
/-- Size 7, and a negative size, with the last codepoint that has a glyph. -/
theorem witness_SmallFontDrawsNothing : st.Ready 0 ∧ (7 : Word).toInt < 8 ∧ (0xFFFFFFFF : Word).toInt < 8 ∧
    ∀ p ∈ ([0x41, 0x7E] : List Word), p.toNat ≤ 126 :=
  ⟨ready0, by decide, by decide, by simp⟩
theorem witness_GlyphRangeFaultNamesCharacter : ∃ (o : TextOps) (before later : List Word) (p : Word),
    st.Ready 0 ∧ st.BufsOk ∧ o.tflags = 3 ∧ o.family = 0 ∧ o.text = before ++ p :: later ∧ 126 < p.toNat ∧
    (∀ q ∈ before, q.toNat ≤ 126) ∧
    (∀ px py, TextLights st.cfg before o.x.toInt o.y.toInt (o.size.toInt / 8) px py → inRange st.cfg 0 px py = true) :=
  ⟨⟨3, 0, 8, 0, 0, 0, [0x41, 0x7F, 0x42]⟩, [0x41], [0x42], 0x7F, ready0, bufs_ok, by decide, by decide, rfl, by decide, by simp, a_fits⟩
/-- "A" one row too high, alone and with a codepoint above 126 after it: its pixel in column 1, row 0 is lit at (1, −1), and is the
first out of range, after the six pixels of column 0. -/
theorem witness_DrawTextOffSurfaceFaults : ∃ (o o' : TextOps) (before later : List Word), st.Ready 0 ∧ st.BufsOk ∧
    o.tflags = 3 ∧ o.family = 0 ∧ o.text = before ++ later ∧ o' = { o with text := before ++ [] } ∧ later = [0x7F] ∧
    (∀ q ∈ before, q.toNat ≤ 126) ∧
    (∃ px py, TextLights st.cfg before o.x.toInt o.y.toInt (o.size.toInt / 8) px py ∧ inRange st.cfg 0 px py = false) ∧
    FirstOutside st.cfg 0 (textPixels st.cfg before o.x.toInt o.y.toInt (o.size.toInt / 8)) 6 (1, -1) :=
  ⟨⟨3, 0, 8, 0, 0, 0xFFFFFFFF, [0x41, 0x7F]⟩, _, [0x41], [0x7F], ready0, bufs_ok, by decide, by decide, rfl, rfl, rfl, by simp,
    ⟨1, -1,
      ⟨0, 0x41, rfl, by decide, 1, 0, 0, 0, by decide, by decide, by decide, by decide, by decide +kernel, by decide, by decide⟩,
      by decide⟩,
    by decide +kernel, by decide, by decide +kernel⟩
theorem witness_EllipseAndRectTextNotImplemented : st.Ready 3 := ready3

theorem blit_ok (t : Byte) : ¬ UnsupportedIn st.cfg (.rStretchImage t (.fields ⟨7, 7, 2, 2, 1, 0, 0, 2, 2, 0xFF⟩)) := by
  simp only [UnsupportedIn]; decide
/-- s1 (2×2) onto the larger s0. -/
theorem witness_BlitCopiesWholeSource : ∃ o : BlitOps, st.Ready 0 ∧ st.BufsOk ∧ o.src.toNat < st.cfg.nsurf ∧
    ¬ UnsupportedIn st.cfg (.rStretchImage 0 (.fields o)) ∧
    st.cfg.width o.src.toNat ≤ st.cfg.width 0 ∧ st.cfg.height o.src.toNat ≤ st.cfg.height 0 :=
  ⟨⟨7, 7, 2, 2, 1, 0, 0, 2, 2, 0xFF⟩, ready0, bufs_ok, by decide, blit_ok 0, by decide, by decide⟩
/-- s1 onto itself. -/
theorem witness_SameSizeBlitMakesBuffersEqual : ∃ o : BlitOps, st.Ready 1 ∧ st.BufsOk ∧ o.src.toNat < st.cfg.nsurf ∧
    ¬ UnsupportedIn st.cfg (.rStretchImage 1 (.fields o)) ∧
    st.cfg.width o.src.toNat = st.cfg.width 1 ∧ st.cfg.height o.src.toNat = st.cfg.height 1 :=
  ⟨⟨7, 7, 2, 2, 1, 0, 0, 2, 2, 0xFF⟩, ready1, bufs_ok, by decide, blit_ok 1, by decide, by decide⟩
/-- s1 (2×2) onto the narrower s2 (1×2), and onto the lower s3 (2×1). -/
theorem witness_BlitOntoSmallerTargetFaults : ∃ o : BlitOps, st.Ready 2 ∧ st.Ready 3 ∧ st.BufsOk ∧ st.cfg.wf = true ∧
    o.src.toNat < st.cfg.nsurf ∧ ¬ UnsupportedIn st.cfg (.rStretchImage 2 (.fields o)) ∧
    ¬ UnsupportedIn st.cfg (.rStretchImage 3 (.fields o)) ∧ st.cfg.width 2 < st.cfg.width o.src.toNat ∧
    st.cfg.width o.src.toNat ≤ st.cfg.width 3 ∧ st.cfg.height 3 < st.cfg.height o.src.toNat :=
  ⟨⟨7, 7, 2, 2, 1, 0, 0, 2, 2, 0xFF⟩, ready2, ready3, bufs_ok, cfg_wf, by decide, blit_ok 2, blit_ok 3, by decide, by decide,
    by decide⟩
/-- Register 4 is the last, register 5 the first that does not exist. -/
theorem witness_RdRegAnswersControlRegister :
    [st.status, st.finfo0, st.finfo1, st.fcmd, BitVec.ofNat 32 st.cfg.surfaces.length][(4 : Word).toNat]? = some 4 ∧
    [faulted.status, faulted.finfo0, faulted.finfo1, faulted.fcmd, 4#32][(0 : Word).toNat]? = some 0x501 ∧
    4 < (5 : Word).toNat := by decide
theorem witness_FaultedComesFirst : faulted.status.getLsbD 0 = true ∧
    splitPacket (faulted.present [0x00000009]).port = some (⟨0x00000009, []⟩, []) ∧
    decodePacket ⟨0x00000009, []⟩ = .error (.reservedOpcode 0x09) := by decide
/-- A command that is illegal and one that is not; `SYS.RDREG` on a faulted machine; a reserved opcode. -/
theorem witness_IllegalCommandCauses : st.status.getLsbD 0 = false ∧ IllegalIn st.cfg (.dtWidth 4 (.fields ())) ∧
    ¬ IllegalIn st.cfg (.dtWidth 3 (.fields ())) ∧ IllegalIn st.cfg (.dtWidth 0 (.otherLen [0])) ∧
    IllegalIn st.cfg (.sysRdReg 0 (.fields 5)) ∧ ¬ IllegalIn st.cfg (.sysRdReg 0xFF (.fields 4)) ∧
    IllegalIn st.cfg (.rDrawText 0 (.fields ⟨7, 0, 8, 0, 0, 0, []⟩)) ∧
    IllegalIn st.cfg (.rStretchImage 0 (.fields ⟨0, 0, 2, 2, 4, 0, 0, 2, 2, 0xFF⟩)) ∧
    splitPacket (st.present [0x00000009]).port = some (⟨0x00000009, []⟩, []) ∧
    decodePacket ⟨0x00000009, []⟩ = .error (.reservedOpcode 0x09) := by
  simp only [IllegalIn, WrongLen]; decide
theorem witness_UnsupportedCauses : (∀ t o, Instr.rDrawLine 0 (.fields ⟨0, 2, 0, 0, 0, 0⟩) ≠ .sysRdReg t o) ∧
    st.status.getLsbD 0 = false ∧ ¬ IllegalIn st.cfg (.rDrawLine 0 (.fields ⟨0, 2, 0, 0, 0, 0⟩)) ∧
    UnsupportedIn st.cfg (.rDrawLine 0 (.fields ⟨0, 2, 0, 0, 0, 0⟩)) ∧
    ¬ UnsupportedIn st.cfg (.rDrawLine 0 (.fields ⟨0, 1, 0, 0, 0, 0⟩)) :=
  ⟨by simp, by decide, by simp only [IllegalIn, WrongLen]; decide, by simp only [UnsupportedIn]; decide,
    by simp only [UnsupportedIn]; decide⟩
theorem witness_InvalidArgumentCauses : (∀ t o, Instr.rDrawText 0 (.fields ⟨1, 9, 8, 0, 0, 0, [0x7F]⟩) ≠ .sysRdReg t o) ∧
    st.status.getLsbD 0 = false ∧ ¬ IllegalIn st.cfg (.rDrawText 0 (.fields ⟨1, 9, 8, 0, 0, 0, [0x7F]⟩)) ∧
    InvalidArgumentIn (.rDrawText 0 (.fields ⟨1, 9, 8, 0, 0, 0, [0x7F]⟩)) :=
  ⟨by simp, by decide, by simp only [IllegalIn]; decide, by simp only [InvalidArgumentIn]; decide⟩
theorem witness_NotImplementedCauses : (∀ t o, Instr.rDrawEllipse 0 [7] ≠ .sysRdReg t o) ∧ st.status.getLsbD 0 = false ∧
    ¬ IllegalIn st.cfg (.rDrawEllipse 0 [7]) := ⟨by simp, by decide, by simp only [IllegalIn]; decide⟩
theorem witness_ExactlyOneResponse : splitPacket (st.present [0x00000005, 6]).port = some (⟨0x00000005, []⟩, [6]) ∧
    ¬ ReturnsValue (.dtFlush 0 (.fields ())) ∧ decodePacket ⟨0x00000005, []⟩ = .ok (.dtFlush 0 (.fields ())) :=
  ⟨by decide, by simp [ReturnsValue], by decide⟩
theorem witness_StepAlwaysAnswers : splitPacket st.port = none ∧
    splitPacket (st.present [0x00000005, 6]).port = some (⟨0x00000005, []⟩, [6]) := by decide
theorem witness_ErrorsChangeNothing : ∃ s' : State, exec (.rDrawEllipse 0 []) st = .next s' ∧ s'.resp = st.resp ++ [⟨3, 0⟩] :=
  ⟨_, rfl, by decide⟩
/-- A step on a command that is rejected, and one on a reserved opcode, each with a word left over. -/
theorem witness_ErrorsChangeNothing_step : (∃ s' : State,
      splitPacket (st.present [0x00000015, 6]).port = some (⟨0x00000015, []⟩, [6]) ∧
      step (st.present [0x00000015, 6]) = .next s' ∧ s'.resp = (st.present [0x00000015, 6]).resp ++ [⟨3, 0⟩]) ∧
    ∃ s' : State, splitPacket (st.present [0x00010009, 7, 6]).port = some (⟨0x00010009, [7]⟩, [6]) ∧
      step (st.present [0x00010009, 7, 6]) = .next s' ∧ s'.resp = (st.present [0x00010009, 7, 6]).resp ++ [⟨4, 0⟩] :=
  ⟨⟨_, by decide, rfl, by decide⟩, _, by decide, rfl, by decide⟩
/-- A command that leaves the record alone and one that faults. -/
theorem witness_RecordChangesOnlyByFault : (∃ s', exec (.rClear 0 (.fields ())) st = .next s') ∧
    ∃ s', exec (.dtGetPixel 0 (.fields ⟨5, 0⟩)) st = .next s' ∧ s'.status = 0x501 := ⟨⟨_, rfl⟩, _, rfl, by decide⟩
theorem witness_FaultIsSticky : ∃ s', faulted.status.getLsbD 0 = true ∧ step (faulted.present [0x00000010]) = .next s' ∧
    s'.resp = [⟨7, 0⟩] := ⟨_, by decide, rfl, by decide⟩
theorem witness_CommandsWriteOnlyTheirState : (∃ s', exec (.rClear 0 (.fields ())) st = .next s') ∧
    ¬ WritesBuffer (.dtFlush 0 (.fields ())) ∧ ¬ WritesOut (.rClear 0 (.fields ())) :=
  ⟨⟨_, rfl⟩, by simp [WritesBuffer], by simp [WritesOut]⟩
theorem witness_OutIsNeverRead : ∃ s', exec (.dtFlush 0 (.fields ())) st = .next s' ∧ s'.out = st.out ++ [.dtFlush 0] :=
  ⟨_, rfl, by decide⟩
/-- Two colours that differ in bits 31:24 only; TFLAGS without a font, and without a text. -/
theorem witness_IgnoredOperandsChangeNothing : (0xFF123456 : Word).extractLsb' 0 24 = (0x00123456 : Word).extractLsb' 0 24 ∧
    (1 : Word).getLsbD 1 = false ∧ (2 : Word).getLsbD 0 = false := by decide
theorem witness_ResetClearsFaultAndKeepsParameters : ∃ inits : List (List Byte), inits.length = faulted.cfg.nsurf ∧
    (∀ t init, inits[t]? = some init → init.length = faulted.cfg.bufLen t) ∧ (faulted.assertReset inits).status = 0 := by
  refine ⟨[List.replicate 70 1, List.replicate 8 2, List.replicate 4 3, List.replicate 4 4], by decide, ?_, by decide⟩
  rintro (_ | _ | _ | _ | t) init h
  · obtain rfl : List.replicate 70 1 = init := by simpa using h
    simp only [List.length_replicate]; decide
  · obtain rfl : List.replicate 8 2 = init := by simpa using h
    decide
  · obtain rfl : List.replicate 4 3 = init := by simpa using h
    decide
  · obtain rfl : List.replicate 4 4 = init := by simpa using h
    decide
  · simp at h
theorem witness_InvariantAtReset : cfg.wf = true ∧ Config.tc.wf = true := by decide +kernel
/-- A step from reset, and one that faults, begin in a state of the invariant. -/
theorem witness_StepKeepsInvariant : (st.present [0x00020001, 5, 0]).Inv ∧
    ∃ s', step (st.present [0x00020001, 5, 0]) = .next s' ∧ s'.status = 0x501 :=
  ⟨⟨cfg_wf, bufs_ok, .inl (by decide), by intro r h; cases h⟩, _, rfl, by decide⟩

end Sys2Proof.Tests
end

/-! PROOFS. 20_memory.md, the colour conversions (R54, R55, R59). A pixel value is three fields, and each conversion is an append
of fields: `enc565_eq_append` and `dec565_eq_append` say so once, and the laws follow from taking appends apart. -/

namespace Sys2Proof.Machine

/-! ### Channels of a byte: masked, shifted, as fields -/

theorem byte_and_0xF8 (x : Byte) : x &&& 0xF8 = x.extractLsb' 3 5 ++ 0#3 := by decide +revert

theorem byte_and_0xFC (x : Byte) : x &&& 0xFC = x.extractLsb' 2 6 ++ 0#2 := by decide +revert

theorem byte_and_0xF8_eq_zero (x : Byte) : x &&& 0xF8 = 0 ↔ x.toNat < 8 := by decide +revert

theorem byte_and_0xFC_eq_zero (x : Byte) : x &&& 0xFC = 0 ↔ x.toNat < 4 := by decide +revert

theorem red_placed (r : Byte) :
    ((r &&& 0xF8).setWidth 16) <<< 8 = (r.extractLsb' 3 5).setWidth 16 <<< (6 + 5) := by decide +revert

theorem green_placed (g : Byte) :
    ((g &&& 0xFC).setWidth 16) <<< 3 = (g.extractLsb' 2 6).setWidth 16 <<< 5 := by decide +revert

theorem blue_placed (b : Byte) :
    ((b &&& 0xF8).setWidth 16) >>> 3 = (b.extractLsb' 3 5).setWidth 16 := by decide +revert

theorem red_placed_toNat (r : Byte) :
    (((r &&& 0xF8).setWidth 16 : Pixel) <<< 8).toNat = (r.toNat &&& 0xF8) <<< 8 := by decide +revert

theorem green_placed_toNat (g : Byte) :
    (((g &&& 0xFC).setWidth 16 : Pixel) <<< 3).toNat = (g.toNat &&& 0xFC) <<< 3 := by decide +revert

theorem blue_placed_toNat (b : Byte) :
    (((b &&& 0xF8).setWidth 16 : Pixel) >>> 3).toNat = (b.toNat &&& 0xF8) >>> 3 := by decide +revert

theorem blue_of_byte (lo : Byte) : (lo &&& 0x1F) <<< 3 = lo.extractLsb' 0 5 ++ 0#3 := by decide +revert

/-- The green field straddles the two bytes of a pixel: three bits of each. -/
theorem green_of_bytes (hi lo : Byte) :
    ((hi &&& 0x07) <<< 5) ||| ((lo &&& 0xE0) >>> 3) = (hi.extractLsb' 0 3 ++ lo.extractLsb' 5 3) ++ 0#2 := by
  have hhi : (hi &&& 0x07) <<< 5 = hi.extractLsb' 0 3 ++ 0#5 := by decide +revert
  have hlo : (lo &&& 0xE0) >>> 3 = 0#3 ++ (lo.extractLsb' 5 3 ++ 0#2) := by decide +revert
  rw [hhi, hlo, BitVec.append_assoc]
  exact BitVec.or_append.trans (by simp)

/-! ### Fields of a pixel value -/

theorem fields_of_append (r : BitVec 5) (g : BitVec 6) (b : BitVec 5) :
    (r ++ g ++ b).extractLsb' 11 5 = r ∧ (r ++ g ++ b).extractLsb' 5 6 = g ∧
      (r ++ g ++ b).extractLsb' 0 5 = b := by
  refine ⟨?_, ?_, BitVec.extractLsb'_append_eq_right⟩
  · rw [BitVec.extractLsb'_append_eq_of_le (by decide)]; exact BitVec.extractLsb'_append_eq_left
  · rw [BitVec.extractLsb'_append_eq_of_le (by decide)]; exact BitVec.extractLsb'_append_eq_right

theorem append_of_fields (v : Pixel) :
    v.extractLsb' 11 5 ++ v.extractLsb' 5 6 ++ v.extractLsb' 0 5 = v := by
  rw [BitVec.extractLsb'_append_extractLsb'_eq_extractLsb' (by decide),
    BitVec.extractLsb'_append_extractLsb'_eq_extractLsb' (by decide)]
  exact BitVec.extractLsb'_eq_self

theorem fields_of_bytes (hi lo : Byte) :
    (hi ++ lo).extractLsb' 11 5 = hi.extractLsb' 3 5 ∧
      (hi ++ lo).extractLsb' 5 6 = hi.extractLsb' 0 3 ++ lo.extractLsb' 5 3 ∧
      (hi ++ lo).extractLsb' 0 5 = lo.extractLsb' 0 5 := by
  refine ⟨BitVec.extractLsb'_append_eq_of_le (by decide), ?_, BitVec.extractLsb'_append_eq_of_add_le (by decide)⟩
  rw [BitVec.extractLsb'_append_eq_ite]
  simp

/-! ### The conversions as appends of fields -/

/-- R54's equivalent form. -/
theorem enc565_eq_append (c : Color) :
    enc565 c = c.r.extractLsb' 3 5 ++ c.g.extractLsb' 2 6 ++ c.b.extractLsb' 3 5 := by
  rw [enc565, red_placed, green_placed, blue_placed, ← BitVec.setWidth_append_append_eq_shiftLeft_setWidth_or,
    BitVec.setWidth_eq]

theorem dec565_eq_append (v : Pixel) :
    dec565 v = ⟨v.extractLsb' 11 5 ++ 0#3, v.extractLsb' 5 6 ++ 0#2, v.extractLsb' 0 5 ++ 0#3⟩ := by
  have h5 (f : BitVec 5) : f.setWidth 8 <<< 3 = f ++ 0#3 := by decide +revert
  have h6 (f : BitVec 6) : f.setWidth 8 <<< 2 = f ++ 0#2 := by decide +revert
  rw [dec565, h5, h6, h5]

/-- Settles O8: each masked channel is placed without loss, and the three together are the append of the channels' top bits. -/
theorem enc565MasksChannels : Obligations.Enc565MasksChannels := fun c =>
  ⟨by rw [enc565, BitVec.toNat_or, BitVec.toNat_or, red_placed_toNat, green_placed_toNat, blue_placed_toNat],
    enc565_eq_append c⟩

theorem toNat_append_zero {n : Nat} (f : BitVec n) (k : Nat) : (f ++ 0#k).toNat = f.toNat * 2 ^ k := by
  simp [Nat.shiftLeft_eq]

theorem dec565_toNat (v : Pixel) :
    (dec565 v).r.toNat = v.toNat / 2 ^ 11 % 32 * 8 ∧ (dec565 v).g.toNat = v.toNat / 2 ^ 5 % 64 * 4 ∧
      (dec565 v).b.toNat = v.toNat % 32 * 8 := by
  have field (start n : Nat) : (v.extractLsb' start n).toNat = v.toNat / 2 ^ start % 2 ^ n := by
    rw [BitVec.extractLsb'_toNat, Nat.shiftRight_eq_div_pow]
  rw [dec565_eq_append]
  refine ⟨(toNat_append_zero _ 3).trans ?_, (toNat_append_zero _ 2).trans ?_, (toNat_append_zero _ 3).trans ?_⟩
  · simp [field]
  · simp [field]
  · simp [field]

/-- R55 on the two bytes of a pixel in memory. -/
theorem dec565_append (hi lo : Byte) :
    dec565 (hi ++ lo) = ⟨hi &&& 0xF8, ((hi &&& 0x07) <<< 5) ||| ((lo &&& 0xE0) >>> 3), (lo &&& 0x1F) <<< 3⟩ := by
  obtain ⟨hr, hg, hb⟩ := fields_of_bytes hi lo
  rw [dec565_eq_append, hr, hg, hb, byte_and_0xF8, green_of_bytes, blue_of_byte]

/-- Settles O9: the fields of the value on numbers and on its two bytes, and white evaluated. -/
theorem dec565ZeroesLowBits : Obligations.Dec565ZeroesLowBits :=
  ⟨dec565_toNat, fun hi lo => by rw [dec565_append]; exact ⟨rfl, rfl, rfl⟩, by decide⟩

/-! ### The laws of R59 -/

theorem enc565_dec565 (v : Pixel) : enc565 (dec565 v) = v := by
  have h5 (f : BitVec 5) : (f ++ 0#3).extractLsb' 3 5 = f := BitVec.extractLsb'_append_eq_left
  have h6 (f : BitVec 6) : (f ++ 0#2).extractLsb' 2 6 = f := BitVec.extractLsb'_append_eq_left
  rw [dec565_eq_append, enc565_eq_append, h5, h6, h5, append_of_fields]

theorem dec565_enc565 (c : Color) : dec565 (enc565 c) = ⟨c.r &&& 0xF8, c.g &&& 0xFC, c.b &&& 0xF8⟩ := by
  obtain ⟨hr, hg, hb⟩ := fields_of_append (c.r.extractLsb' 3 5) (c.g.extractLsb' 2 6) (c.b.extractLsb' 3 5)
  rw [enc565_eq_append, dec565_eq_append, hr, hg, hb, byte_and_0xF8, byte_and_0xFC, byte_and_0xF8]

/-- `dec565` loses nothing, so an encoded colour is 0 exactly when it decodes to black. -/
theorem enc565_eq_zero_iff (c : Color) : enc565 c = 0 ↔ c.r.toNat < 8 ∧ c.g.toNat < 4 ∧ c.b.toNat < 8 := by
  have h : enc565 c = 0 ↔ dec565 (enc565 c) = ⟨0, 0, 0⟩ := by
    refine ⟨fun h => by rw [h]; decide, fun h => ?_⟩
    rw [← enc565_dec565 (enc565 c), h]; decide
  rw [h, dec565_enc565, Color.mk.injEq, byte_and_0xF8_eq_zero, byte_and_0xFC_eq_zero, byte_and_0xF8_eq_zero]

theorem word_eq_append (w : Word) :
    w.extractLsb' 24 8 ++ w.extractLsb' 16 8 ++ w.extractLsb' 8 8 ++ w.extractLsb' 0 8 = w := by
  rw [BitVec.extractLsb'_append_extractLsb'_eq_extractLsb' (by decide),
    BitVec.extractLsb'_append_extractLsb'_eq_extractLsb' (by decide),
    BitVec.extractLsb'_append_extractLsb'_eq_extractLsb' (by decide)]
  exact BitVec.extractLsb'_eq_self

/-- A colour word encoded, decoded and packed again keeps the bits of the three fields. -/
theorem packed_dec565_enc565 (w : Word) : Color.packed 0 (dec565 (enc565 (color32 w))) = w &&& 0x00F8FCF8 := by
  have hmask : (0x00F8FCF8 : Word) = 0#8 ++ 0xF8#8 ++ 0xFC#8 ++ 0xF8#8 := by decide
  calc Color.packed 0 (dec565 (enc565 (color32 w)))
      = 0#8 ++ (w.extractLsb' 16 8 &&& 0xF8#8) ++ (w.extractLsb' 8 8 &&& 0xFC#8) ++
          (w.extractLsb' 0 8 &&& 0xF8#8) := by rw [dec565_enc565]; rfl
    _ = (w.extractLsb' 24 8 ++ w.extractLsb' 16 8 ++ w.extractLsb' 8 8 ++ w.extractLsb' 0 8) &&&
          (0#8 ++ 0xF8#8 ++ 0xFC#8 ++ 0xF8#8) := by
        rw [BitVec.and_append, BitVec.and_append, BitVec.and_append, BitVec.and_zero]
    _ = w &&& 0x00F8FCF8 := by rw [word_eq_append, hmask]

/-- The bits the conversions keep and the bits they drop make up the whole word. -/
theorem and_0x00F8FCF8_of_and_eq_zero {w : Word} (h : w &&& 0xFF070307 = 0) : w &&& 0x00F8FCF8 = w := by
  have hmasks : (0x00F8FCF8 ||| 0xFF070307 : Word) = BitVec.allOnes 32 := by decide
  calc w &&& 0x00F8FCF8 = (w &&& 0x00F8FCF8) ||| (w &&& 0xFF070307) := by rw [h]; exact BitVec.or_zero.symm
    _ = w &&& (0x00F8FCF8 ||| 0xFF070307) := BitVec.and_or_distrib_left.symm
    _ = w := by rw [hmasks, BitVec.and_allOnes]

end Sys2Proof.Machine

/-! PROOFS. 20_memory.md, memory as the transfer port shows it (R56 to R58), and the pixel commands in range. -/

namespace Sys2Proof.Machine

/-! ### The transfer port -/

theorem xferRead_of_lt (s : State) {t o : Nat} (ht : t < s.cfg.nsurf) (ho : o < s.cfg.bufLen t) :
    xferRead s t o = some (s.readByte t o) := if_pos ⟨ht, ho⟩

/-- The port shows the same byte where the configuration and the byte in the buffer are the same. -/
theorem xferRead_congr {s s' : State} {u o : Nat} (hc : s'.cfg = s.cfg)
    (h : o < s.cfg.bufLen u → s'.readByte u o = s.readByte u o) : xferRead s' u o = xferRead s u o := by
  unfold xferRead
  rw [hc]
  split
  · next hlt => rw [h hlt.2]
  · rfl

/-! ### Checked pixel access -/

theorem inRange_eq_false_iff (c : Config) (t : Nat) (x y : Int) :
    inRange c t x y = false ↔ ¬ (0 ≤ x ∧ x < c.width t ∧ 0 ≤ y ∧ y < c.height t) := by
  rw [← inRange_iff, Bool.not_eq_true]

theorem pixRead_of_inRange {s : State} {t : Nat} {x y : Int} (h : inRange s.cfg t x y = true) :
    pixRead t x y s = .ok (s.readPixel t (pixelOffset s.cfg t x y)) := if_pos h

theorem pixRead_of_not_inRange {s : State} {t : Nat} {x y : Int} (h : inRange s.cfg t x y = false) :
    pixRead t x y s = .error (.pixelRange x y) := by
  simp [pixRead, h]

theorem pixWrite_of_inRange {s : State} {t : Nat} {x y : Int} (v : Pixel) (h : inRange s.cfg t x y = true) :
    pixWrite t x y v s = .done (s.writePixel t (pixelOffset s.cfg t x y) v) := if_pos h

theorem pixWrite_of_not_inRange {s : State} {t : Nat} {x y : Int} (v : Pixel) (h : inRange s.cfg t x y = false) :
    pixWrite t x y v s = .raised (.pixelRange x y) s := by
  simp [pixWrite, h]

/-- Settles O12: both bytes of a pixel in range lie inside the buffer (`pixelOffset_lt`), so the port shows them. -/
theorem pixReadIsChecked : Obligations.PixReadIsChecked := by
  intro s t x y ht
  refine ⟨fun hin => ?_, fun hout => pixRead_of_not_inRange ((inRange_eq_false_iff ..).mpr hout)⟩
  have hr := (inRange_iff ..).mpr hin
  have ho := pixelOffset_lt hr
  exact ⟨_, _, xferRead_of_lt s ht (Nat.lt_of_succ_lt ho), xferRead_of_lt s ht ho, pixRead_of_inRange hr⟩

/-- What the port shows after a pixel is written: its high byte, its low byte, and elsewhere what it showed before. -/
theorem xferRead_writePixel {s : State} {t off : Nat} (v : Pixel) (hb : s.BufsOk) (ht : t < s.cfg.nsurf)
    (ho : off + 1 < s.cfg.bufLen t) :
    xferRead (s.writePixel t off v) t off = some (v.extractLsb' 8 8) ∧
      xferRead (s.writePixel t off v) t (off + 1) = some (v.extractLsb' 0 8) ∧
      ∀ u o, ¬ (u = t ∧ (o = off ∨ o = off + 1)) → xferRead (s.writePixel t off v) u o = xferRead s u o := by
  have hread := s.readByte_writePixel off v hb ht ho
  refine ⟨?_, ?_, fun u o hne => xferRead_congr rfl fun _ => ?_⟩
  · rw [xferRead_of_lt (s.writePixel t off v) ht (Nat.lt_of_succ_lt ho), hread]; simp
  · rw [xferRead_of_lt (s.writePixel t off v) ht ho, hread]; simp
  · rw [hread, if_neg fun h => hne ⟨h.1, .inl h.2⟩, if_neg fun h => hne ⟨h.1, .inr h.2⟩]

/-- Settles O13: in range the write is `State.writePixel` inside the buffer; out of range the test comes first. -/
theorem pixWriteStoresTwoBytes : Obligations.PixWriteStoresTwoBytes := by
  intro s t x y v hb ht
  refine ⟨fun hin => ?_, fun hout => pixWrite_of_not_inRange v ((inRange_eq_false_iff ..).mpr hout)⟩
  have hr := (inRange_iff ..).mpr hin
  have ho := pixelOffset_lt hr
  obtain ⟨hhi, hlo, hrest⟩ := xferRead_writePixel v hb ht ho
  exact ⟨_, pixWrite_of_inRange v hr, hhi, hlo, hrest, rfl, hb.writePixel ho⟩

/-- Settles O14: the port read through `State.readByte_bulkClear`, on the surface itself and on another one. -/
theorem bulkClearZeroesSurface : Obligations.BulkClearZeroesSurface := by
  intro s t hb ht
  refine ⟨fun o ho => ?_, fun u o hu => xferRead_congr rfl fun ho => ?_, rfl, hb.bulkClear t⟩
  · rw [xferRead_of_lt (s.bulkClear t) ht ho, s.readByte_bulkClear hb ht t o ho, if_pos rfl]
  · rw [s.readByte_bulkClear hb ht u o ho, if_neg hu]

/-! ### Pixel commands in range -/

@[simp] theorem State.respond_readPixel (s : State) (c : Code) (v : Word) (u o : Nat) :
    (s.respond c v).readPixel u o = s.readPixel u o := rfl

theorem State.Ready.writePixel {s : State} {t : Byte} {u off : Nat} {v : Pixel} (h : s.Ready t) :
    (s.writePixel u off v).Ready t := h

theorem State.Ready.respond {s : State} {t : Byte} {c : Code} {v : Word} (h : s.Ready t) :
    (s.respond c v).Ready t := h

theorem setPixelOp_of_inRange {h : Word} {t : Byte} {o : PixelOps} {s : State}
    (hr : inRange s.cfg t.toNat o.x.toInt o.y.toInt = true) :
    setPixelOp h t o s = .next ((s.writePixel t.toNat (pixelOffset s.cfg t.toNat o.x.toInt o.y.toInt)
      (enc565 (color32 o.color))).respond .ok 0) := by
  rw [setPixelOp, s32, s32, pixWrite_of_inRange _ hr]
  rfl

theorem getPixelOp_of_inRange {h : Word} {t alpha : Byte} {o : PointOps} {s : State}
    (hr : inRange s.cfg t.toNat o.x.toInt o.y.toInt = true) :
    getPixelOp h t alpha o s = .next (s.respond .ok (Color.packed alpha
      (dec565 (s.readPixel t.toNat (pixelOffset s.cfg t.toNat o.x.toInt o.y.toInt))))) := by
  rw [getPixelOp, s32, s32, pixRead_of_inRange hr]
  rfl

/-- `DT.SETPIXEL` and then `DT.GETPIXEL` at the same place answers the colour word with the bits outside its fields zero. -/
theorem getPixel_after_setPixel {s : State} {t : Byte} {x y color : Word} (hs : s.Ready t) (hb : s.BufsOk)
    (hr : inRange s.cfg t.toNat x.toInt y.toInt = true) :
    ∃ s₁ s₂, exec (.dtSetPixel t (.fields ⟨x, y, color⟩)) s = .next s₁ ∧
      exec (.dtGetPixel t (.fields ⟨x, y⟩)) s₁ = .next s₂ ∧
      s₂.resp = s.resp ++ [⟨0, 0⟩, ⟨0, color &&& 0x00F8FCF8⟩] := by
  refine ⟨_, _, (withOperands_ready hs _ _).trans (setPixelOp_of_inRange hr),
    (withOperands_ready hs.writePixel.respond _ _).trans (getPixelOp_of_inRange hr), ?_⟩
  have hpixel := s.readPixel_writePixel _ (enc565 (color32 color)) hb hs.2 (pixelOffset_lt hr)
  rw [← packed_dec565_enc565]
  simp [hpixel, Code.number]

/-- Settles O10: (a), (b) and (d) are the laws above, with (7, 3, 7) encoding to 0; (c) is the two commands in a row on a word
that has no bit to lose. -/
theorem colourConversionLaws : Obligations.ColourConversionLaws := by
  refine ⟨enc565_dec565, dec565_enc565, fun s t x y color hs hb hr hlow => ?_, enc565_eq_zero_iff, ⟨7, 3, 7⟩, by decide⟩
  have hround := getPixel_after_setPixel (color := color) hs hb hr
  rwa [and_0x00F8FCF8_of_and_eq_zero hlow] at hround

end Sys2Proof.Machine

/-! PROOFS. 60_exceptions.md, the error codes: which cause answers which (R262 to R265, R268), and that an error changes nothing
(R271). `exec_verdict` says once what a command answers past the fault test: it is rejected with the code of its cause, or it has
no cause and is carried out. The statements about the single codes are read off it. -/

namespace Sys2Proof.Machine

/-! ### Error codes -/

theorem Code.number_injective : Function.Injective Code.number := by
  intro c c'
  cases c <;> cases c' <;> decide

/-- The numbers of the codes that are errors: neither OK nor one of the two faults (R261). -/
def ErrorNumber (b : Byte) : Prop := b = 1 ∨ b = 2 ∨ b = 3 ∨ b = 4 ∨ b = 7

theorem Raise.not_errorNumber (f : Raise) : ¬ ErrorNumber f.code.number := by
  cases f <;> simp [ErrorNumber, Raise.code, Code.number]

theorem last_eq_of_append_eq {α : Type} {l l' : List α} {a a' : α} (h : l ++ [a] = l' ++ [a']) : a = a' :=
  List.singleton_injective (List.append_inj_right' h rfl)

/-- The ends of a command that is not rejected: OK, or fault entry. -/
inductive CarriedOut : Result → Prop
  | ok (v : Word) (s : State) : CarriedOut (.next (s.respond .ok v))
  | fault (h : Word) (f : Raise) (s : State) : CarriedOut (.next (takeFault h f s))

theorem CarriedOut.not_errorNumber {s : State} {l : List Response} {r : Response} (h : CarriedOut (.next s))
    (hr : s.resp = l ++ [r]) : ¬ ErrorNumber r.code := by
  cases h with
  | ok v s =>
    rw [← last_eq_of_append_eq hr]
    simp [ErrorNumber, Code.number]
  | fault h f s =>
    rw [← last_eq_of_append_eq hr]
    exact f.not_errorNumber

theorem carriedOut_finish (h : Word) (d : Drawn) : CarriedOut (finish h d) := by
  rcases finish_cases h d with ⟨s, -, e⟩ | ⟨f, s, -, e⟩
  · exact e ▸ .ok 0 s
  · exact e ▸ .fault h f s

theorem carriedOut_getPixelOp (h : Word) (t alpha : Byte) (o : PointOps) (s : State) :
    CarriedOut (getPixelOp h t alpha o s) := by
  unfold getPixelOp
  split
  · exact .ok _ s
  · exact .fault h _ s

theorem raiseError_injective {c c' : Code} {s : State} (h : raiseError c s = raiseError c' s) : c = c' := by
  simp only [raiseError, Host.Outcome.next.injEq] at h
  have hlast := last_eq_of_append_eq (congrArg State.resp h)
  exact Code.number_injective (congrArg Response.code hlast)

/-! ### While the machine is faulted -/

theorem withOperands_faulted {α : Type} {s : State} (hf : s.isFaulted = true) (t : Byte) (ops : Packed α)
    (body : α → State → Result) : withOperands t ops s body = raiseError .faulted s := by
  cases ops <;> simp [withOperands, onSurface, hf]

theorem onSurface_faulted {s : State} (hf : s.isFaulted = true) (t : Byte) (body : State → Result) :
    onSurface t s body = raiseError .faulted s := if_pos hf

theorem exec_faulted {i : Instr} {s : State} (hf : s.isFaulted = true) (hi : ∀ t o, i ≠ .sysRdReg t o) :
    exec i s = raiseError .faulted s := by
  cases i with
  | sysRdReg t o => exact absurd rfl (hi t o)
  | rDrawEllipse t ws => exact onSurface_faulted hf t _
  | rDrawTextInRect t ws => exact onSurface_faulted hf t _
  | _ => exact withOperands_faulted hf _ _ _

/-! ### A step on a whole packet -/

theorem step_of_decodePacket_ok {s : State} {p : Packet} {rest : List Word} {i : Instr}
    (hp : splitPacket s.port = some (p, rest)) (hd : decodePacket p = .ok i) : step s = exec i (s.consume rest) := by
  simp [step, hp, hd]

theorem step_of_decodePacket_error {s : State} {p : Packet} {rest : List Word} {e : DecodeError}
    (hp : splitPacket s.port = some (p, rest)) (hd : decodePacket p = .error e) :
    step s = rejectReserved (s.consume rest) := by
  simp [step, hp, hd]

theorem rejectReserved_faulted {s : State} (hf : s.isFaulted = true) :
    rejectReserved s = raiseError .faulted s := if_pos hf

theorem rejectReserved_unfaulted {s : State} (hf : s.isFaulted = false) :
    rejectReserved s = raiseError .illegalCommand s := by
  simp [rejectReserved, hf]

/-- Settles O39: the fault test is the first test of every command but `SYS.RDREG`, and of a reserved opcode. -/
theorem faultedComesFirst : Obligations.FaultedComesFirst := fun s hf =>
  ⟨fun _ hi => exec_faulted hf hi, fun _ rest _ hp hd =>
    (step_of_decodePacket_error hp hd).trans (rejectReserved_faulted (s := s.consume rest) hf)⟩

/-! ### Causes -/

/-- The commands that no PXE implements (R264). -/
def AbsentIn : Instr → Prop
  | .rDrawEllipse _ _ | .rDrawTextInRect _ _ => True
  | _ => False

theorem absentIn_iff (i : Instr) : AbsentIn i ↔ ∃ t ws, i = .rDrawEllipse t ws ∨ i = .rDrawTextInRect t ws := by
  cases i <;> simp [AbsentIn]

theorem AbsentIn.not_invalidArgumentIn {i : Instr} (h : AbsentIn i) : ¬ InvalidArgumentIn i := by
  cases i with
  | rDrawEllipse t ws => exact id
  | rDrawTextInRect t ws => exact id
  | _ => exact h.elim

theorem AbsentIn.not_unsupportedIn {c : Config} {i : Instr} (h : AbsentIn i) : ¬ UnsupportedIn c i := by
  cases i with
  | rDrawEllipse t ws => exact id
  | rDrawTextInRect t ws => exact id
  | _ => exact h.elim

/-- `R.DRAWTEXT` looks at the family only when text and font are present. -/
theorem InvalidArgumentIn.not_unsupportedIn {c : Config} {i : Instr} (h : InvalidArgumentIn i) :
    ¬ UnsupportedIn c i := by
  cases i with
  | rDrawText t ops =>
    cases ops with
    | otherLen ws => exact h.elim
    | fields o =>
      rintro ⟨htext, hfont, -⟩
      rcases h with h | h
      · exact Bool.false_ne_true (h.symm.trans htext)
      · exact Bool.false_ne_true (h.symm.trans hfont)
  | _ => exact h.elim

/-- The error code that command `i` has cause for on a machine that is not faulted. The causes of decoding come before the
command's own (30_encoding.md R89). -/
inductive Cause (c : Config) (i : Instr) : Code → Prop
  | illegal (h : IllegalIn c i) : Cause c i .illegalCommand
  | invalid (hl : ¬ IllegalIn c i) (h : InvalidArgumentIn i) : Cause c i .invalidArgument
  | unsupported (hl : ¬ IllegalIn c i) (h : UnsupportedIn c i) : Cause c i .unsupported
  | absent (hl : ¬ IllegalIn c i) (h : AbsentIn i) : Cause c i .notImplemented

/-- A command has cause for at most one error code. -/
theorem Cause.unique {c : Config} {i : Instr} {k k' : Code} (h : Cause c i k) (h' : Cause c i k') : k = k' := by
  cases h with
  | illegal h => cases h' with
    | illegal _ => rfl
    | invalid hl _ => exact absurd h hl
    | unsupported hl _ => exact absurd h hl
    | absent hl _ => exact absurd h hl
  | invalid hl h => cases h' with
    | illegal h' => exact absurd h' hl
    | invalid _ _ => rfl
    | unsupported _ h' => exact absurd h' h.not_unsupportedIn
    | absent _ h' => exact absurd h h'.not_invalidArgumentIn
  | unsupported hl h => cases h' with
    | illegal h' => exact absurd h' hl
    | invalid _ h' => exact absurd h h'.not_unsupportedIn
    | unsupported _ _ => rfl
    | absent _ h' => exact absurd h h'.not_unsupportedIn
  | absent hl h => cases h' with
    | illegal h' => exact absurd h' hl
    | invalid _ h' => exact absurd h' h.not_invalidArgumentIn
    | unsupported _ h' => exact absurd h' h.not_unsupportedIn
    | absent _ _ => rfl

theorem not_cause {c : Config} {i : Instr} (hl : ¬ IllegalIn c i) (hi : ¬ InvalidArgumentIn i)
    (hu : ¬ UnsupportedIn c i) (ha : ¬ AbsentIn i) (k : Code) : ¬ Cause c i k := by
  rintro (h | ⟨_, h⟩ | ⟨_, h⟩ | ⟨_, h⟩)
  · exact hl h
  · exact hi h
  · exact hu h
  · exact ha h

theorem Color.isBlack_iff (c : Color) : c.isBlack = true ↔ c.r = 0 ∧ c.g = 0 ∧ c.b = 0 := by
  simp [Color.isBlack, and_assoc]

theorem isBlack_iff_not_unsupportedIn (c : Config) (t : Byte) (color : Word) :
    (color32 color).isBlack = true ↔ ¬ UnsupportedIn c (.dtClear t (.fields color)) :=
  (Color.isBlack_iff _).trans not_not.symm

theorem blitAccepted_iff_not_unsupportedIn (c : Config) (t : Byte) (o : BlitOps) :
    blitAccepted c o = true ↔ ¬ UnsupportedIn c (.rStretchImage t (.fields o)) := by
  simp only [blitAccepted, Bool.and_eq_true, decide_eq_true_eq, and_assoc]
  simp [UnsupportedIn, s32, u32]

theorem u32_eq_zero_iff (w : Word) : u32 w = 0 ↔ w = 0 := by
  simp [u32, BitVec.toNat_eq]

/-! ### What a command answers, by cause -/

/-- The answer of a command that is not kept out by the fault record: the code of its cause, or none and it is carried out. -/
inductive Verdict (i : Instr) (s : State) : Result → Prop
  | rejected (k : Code) (h : Cause s.cfg i k) : Verdict i s (raiseError k s)
  | accepted (r : Result) (h : ∀ k, ¬ Cause s.cfg i k) (hr : CarriedOut r) : Verdict i s r

/-- The checks of decoding, for a command that is illegal when they fail. -/
theorem withOperands_verdict {α : Type} {i : Instr} {t : Byte} {ops : Packed α} {s : State} {body : α → State → Result}
    (hf : s.isFaulted = false) (hl : s.cfg.nsurf ≤ t.toNat ∨ WrongLen ops → IllegalIn s.cfg i)
    (hb : ∀ o, ops = .fields o → t.toNat < s.cfg.nsurf → Verdict i s (body o s)) :
    Verdict i s (withOperands t ops s body) := by
  rcases withOperands_cases t ops s body with ⟨hf', -⟩ | ⟨-, hbad, e⟩ | ⟨o, hr, rfl, e⟩
  · exact absurd (hf.symm.trans hf') Bool.false_ne_true
  · refine e ▸ .rejected .illegalCommand (.illegal (hl ?_))
    rcases hbad with ht | ⟨ws, rfl⟩
    · exact .inl (not_lt.mp ht)
    · exact .inr trivial
  · exact e ▸ hb o rfl hr.2

/-- The same for a command with no illegal operands: past the checks it is not illegal. -/
theorem withOperands_verdict_of_illegalIn_iff {α : Type} {i : Instr} {t : Byte} {ops : Packed α} {s : State}
    {body : α → State → Result} (hf : s.isFaulted = false)
    (hl : IllegalIn s.cfg i ↔ s.cfg.nsurf ≤ t.toNat ∨ WrongLen ops)
    (hb : ∀ o, ops = .fields o → ¬ IllegalIn s.cfg i → Verdict i s (body o s)) :
    Verdict i s (withOperands t ops s body) := by
  refine withOperands_verdict hf hl.mpr fun o ho ht => hb o ho fun h => ?_
  subst ho
  exact (hl.mp h).elim (Nat.not_le.mpr ht) id

/-- A command with no cause but those of decoding. -/
theorem withOperands_verdict_of_carriedOut {α : Type} {i : Instr} {t : Byte} {ops : Packed α} {s : State}
    {body : α → State → Result} (hf : s.isFaulted = false)
    (hl : IllegalIn s.cfg i ↔ s.cfg.nsurf ≤ t.toNat ∨ WrongLen ops) (hi : ¬ InvalidArgumentIn i)
    (hu : ¬ UnsupportedIn s.cfg i) (ha : ¬ AbsentIn i) (hb : ∀ o, CarriedOut (body o s)) :
    Verdict i s (withOperands t ops s body) :=
  withOperands_verdict_of_illegalIn_iff hf hl fun o _ hl => .accepted _ (not_cause hl hi hu ha) (hb o)

theorem onSurface_verdict_absent {i : Instr} {t : Byte} {s : State} (hf : s.isFaulted = false)
    (hl : IllegalIn s.cfg i ↔ s.cfg.nsurf ≤ t.toNat) (ha : AbsentIn i) :
    Verdict i s (onSurface t s (raiseError .notImplemented)) := by
  rcases onSurface_cases t s (raiseError .notImplemented) with ⟨hf', -⟩ | ⟨-, ht, e⟩ | ⟨hr, e⟩
  · exact absurd (hf.symm.trans hf') Bool.false_ne_true
  · exact e ▸ .rejected .illegalCommand (.illegal (hl.mpr (not_lt.mp ht)))
  · exact e ▸ .rejected .notImplemented (.absent (fun h => not_lt.mpr (hl.mp h) hr.2) ha)

theorem execDtClear_verdict {s : State} (hf : s.isFaulted = false) (t : Byte) (ops : Packed Word) :
    Verdict (.dtClear t ops) s (execDtClear t ops s) := by
  refine withOperands_verdict_of_illegalIn_iff hf .rfl fun color ho hl => ?_
  subst ho
  have hblack := isBlack_iff_not_unsupportedIn s.cfg t color
  split
  · next h => exact .accepted _ (not_cause hl id (hblack.mp h) id) (.ok ..)
  · next h => exact .rejected _ (.unsupported hl (not_not.mp (mt hblack.mpr h)))

theorem execRDrawLine_verdict {s : State} (hf : s.isFaulted = false) (t : Byte) (ops : Packed LineOps) :
    Verdict (.rDrawLine t ops) s (execRDrawLine t ops s) := by
  refine withOperands_verdict_of_illegalIn_iff hf .rfl fun o ho hl => ?_
  subst ho
  split
  · next h => exact .rejected _ (.unsupported hl h)
  · next h => exact .accepted _ (not_cause hl id h id) (carriedOut_finish ..)

theorem execRDrawRect_verdict {s : State} (hf : s.isFaulted = false) (t : Byte) (ops : Packed RectOps) :
    Verdict (.rDrawRect t ops) s (execRDrawRect t ops s) := by
  refine withOperands_verdict_of_illegalIn_iff hf .rfl fun o ho hl => ?_
  subst ho
  split
  · next h => exact .rejected _ (.unsupported hl h)
  · next h =>
    refine .accepted _ (not_cause hl id h id) ?_
    split
    · exact .ok ..
    · exact carriedOut_finish ..

theorem execRDrawText_verdict {s : State} (hf : s.isFaulted = false) (t : Byte) (ops : Packed TextOps) :
    Verdict (.rDrawText t ops) s (execRDrawText t ops s) := by
  cases ops with
  | otherLen ws => exact withOperands_verdict hf (fun _ => trivial) fun o ho _ => nomatch ho
  | fields o =>
    refine withOperands_verdict hf (fun h => .inl (h.elim id False.elim)) fun o ho ht => ?_
    cases ho
    split
    · next h => exact .rejected _ (.illegal (.inr h))
    · next hres =>
      have hl : ¬ IllegalIn s.cfg (.rDrawText t (.fields o)) := fun h => h.elim (Nat.not_le.mpr ht) hres
      split
      · next h => exact .rejected _ (.invalid hl h)
      · next hi =>
        obtain ⟨htext, hfont⟩ := not_or.mp hi
        split
        · next h =>
          exact .rejected _ (.unsupported hl ⟨Bool.eq_true_of_not_eq_false htext, Bool.eq_true_of_not_eq_false hfont,
            mt (u32_eq_zero_iff _).mpr h⟩)
        · next h =>
          exact .accepted _ (not_cause hl hi (fun hu => h (mt (u32_eq_zero_iff _).mp hu.2.2)) id) (carriedOut_finish ..)

theorem execRStretchImage_verdict {s : State} (hf : s.isFaulted = false) (t : Byte) (ops : Packed BlitOps) :
    Verdict (.rStretchImage t ops) s (execRStretchImage t ops s) := by
  cases ops with
  | otherLen ws => exact withOperands_verdict hf (fun _ => trivial) fun o ho _ => nomatch ho
  | fields o =>
    refine withOperands_verdict hf (fun h => .inl (h.elim id False.elim)) fun o ho ht => ?_
    cases ho
    have haccept := blitAccepted_iff_not_unsupportedIn s.cfg t o
    split
    · next h => exact .rejected _ (.illegal (.inr h))
    · next hsrc =>
      have hl : ¬ IllegalIn s.cfg (.rStretchImage t (.fields o)) := fun h => h.elim (Nat.not_le.mpr ht) hsrc
      split
      · next h => exact .accepted _ (not_cause hl id (haccept.mp h) id) (carriedOut_finish ..)
      · next h => exact .rejected _ (.unsupported hl (not_not.mp (mt haccept.mpr h)))

/-- `SYS.RDREG` does not look at the fault record. -/
theorem execSysRdReg_verdict (s : State) (t : Byte) (ops : Packed Word) :
    Verdict (.sysRdReg t ops) s (execSysRdReg t ops s) := by
  cases ops with
  | otherLen ws => exact .rejected _ (.illegal trivial)
  | fields n =>
    simp only [execSysRdReg]
    split
    · next h => exact .rejected _ (.illegal h)
    · next h => exact .accepted _ (not_cause h id id id) (.ok ..)

/-- Every command on a machine that is not faulted. -/
theorem exec_verdict {s : State} (hf : s.isFaulted = false) (i : Instr) : Verdict i s (exec i s) := by
  cases i with
  | dtGetPixel t o => exact withOperands_verdict_of_carriedOut hf .rfl id id id fun o => carriedOut_getPixelOp ..
  | rGetPixel t o => exact withOperands_verdict_of_carriedOut hf .rfl id id id fun o => carriedOut_getPixelOp ..
  | dtSetPixel t o => exact withOperands_verdict_of_carriedOut hf .rfl id id id fun o => carriedOut_finish ..
  | rSetPixel t o => exact withOperands_verdict_of_carriedOut hf .rfl id id id fun o => carriedOut_finish ..
  | dtClear t o => exact execDtClear_verdict hf t o
  | rDrawLine t o => exact execRDrawLine_verdict hf t o
  | rDrawRect t o => exact execRDrawRect_verdict hf t o
  | rDrawEllipse t ws => exact onSurface_verdict_absent hf .rfl trivial
  | rDrawText t o => exact execRDrawText_verdict hf t o
  | rDrawTextInRect t ws => exact onSurface_verdict_absent hf .rfl trivial
  | rStretchImage t o => exact execRStretchImage_verdict hf t o
  | sysRdReg t o => exact execSysRdReg_verdict s t o
  | _ => exact withOperands_verdict_of_carriedOut hf .rfl id id id fun o => .ok ..

/-! ### The statements about the causes -/

/-- A command is answered with an error code exactly when it has cause for it. -/
theorem Verdict.eq_raiseError_iff {i : Instr} {s : State} {r : Result} {k : Code} (h : Verdict i s r)
    (hk : ErrorNumber k.number) : r = raiseError k s ↔ Cause s.cfg i k := by
  cases h with
  | rejected k' h =>
    refine ⟨fun e => ?_, fun h' => ?_⟩
    · rwa [← raiseError_injective e]
    · rw [h.unique h']
  | accepted r hnone hr =>
    refine ⟨fun e => ?_, fun h' => absurd h' (hnone k)⟩
    subst e
    exact absurd hk (hr.not_errorNumber (State.respond_resp s k 0))

theorem cause_illegalCommand_iff {c : Config} {i : Instr} : Cause c i .illegalCommand ↔ IllegalIn c i :=
  ⟨fun | .illegal h => h, .illegal⟩

theorem cause_unsupported_iff {c : Config} {i : Instr} (hl : ¬ IllegalIn c i) :
    Cause c i .unsupported ↔ UnsupportedIn c i :=
  ⟨fun | .unsupported _ h => h, .unsupported hl⟩

theorem cause_invalidArgument_iff {c : Config} {i : Instr} (hl : ¬ IllegalIn c i) :
    Cause c i .invalidArgument ↔ InvalidArgumentIn i :=
  ⟨fun | .invalid _ h => h, .invalid hl⟩

theorem cause_notImplemented_iff {c : Config} {i : Instr} (hl : ¬ IllegalIn c i) :
    Cause c i .notImplemented ↔ AbsentIn i :=
  ⟨fun | .absent _ h => h, .absent hl⟩

/-- Settles O40: `exec_verdict` with the code 4, and the reserved opcodes by `step_of_decodePacket_error`. -/
theorem illegalCommandCauses : Obligations.IllegalCommandCauses := by
  intro s
  refine ⟨fun i hs => ?_, fun p rest e hf hp hd =>
    (step_of_decodePacket_error hp hd).trans (rejectReserved_unfaulted (s := s.consume rest) hf)⟩
  have hv : Verdict i s (exec i s) := by
    rcases hs with hf | ⟨t, o, rfl⟩
    · exact exec_verdict hf i
    · exact execSysRdReg_verdict s t o
  exact (hv.eq_raiseError_iff (.inr (.inr (.inr (.inl rfl))))).trans cause_illegalCommand_iff

/-- Settles O41: `exec_verdict` with the code 1. -/
theorem unsupportedCauses : Obligations.UnsupportedCauses := fun _ i _ hf hl =>
  ((exec_verdict hf i).eq_raiseError_iff (.inl rfl)).trans (cause_unsupported_iff hl)

/-- Settles O42: `exec_verdict` with the code 2. -/
theorem invalidArgumentCauses : Obligations.InvalidArgumentCauses := fun _ i _ hf hl =>
  ((exec_verdict hf i).eq_raiseError_iff (.inr (.inl rfl))).trans (cause_invalidArgument_iff hl)

/-- Settles O43: `exec_verdict` with the code 3. -/
theorem notImplementedCauses : Obligations.NotImplementedCauses := fun _ i _ hf hl =>
  (((exec_verdict hf i).eq_raiseError_iff (.inr (.inr (.inl rfl)))).trans (cause_notImplemented_iff hl)).trans
    (absentIn_iff i)

/-! ### An error changes nothing -/

theorem Effect.error_or_carriedOut {i : Instr} {s s' : State} (h : Effect i s s') :
    (∃ k, s' = s.respond k 0) ∨ CarriedOut (.next s') := by
  cases h with
  | error k _ => exact .inl ⟨k, rfl⟩
  | fault f s' _ _ _ _ => exact .inr (.fault _ f s')
  | _ => exact .inr (.ok ..)

theorem respond_precise {s : State} {k : Code} {r : Response} (hr : (s.respond k 0).resp = s.resp ++ [r]) :
    r.value = 0 ∧ s.respond k 0 = { s with resp := s.resp ++ [r] } := by
  obtain rfl := last_eq_of_append_eq hr
  exact ⟨rfl, rfl⟩

theorem exec_error_precise {i : Instr} {s s' : State} {r : Response} (h : exec i s = .next s')
    (hr : s'.resp = s.resp ++ [r]) (he : ErrorNumber r.code) :
    r.value = 0 ∧ s' = { s with resp := s.resp ++ [r] } := by
  rcases (Effect.of_exec h).error_or_carriedOut with ⟨k, rfl⟩ | hc
  · exact respond_precise hr
  · exact absurd he (hc.not_errorNumber hr)

theorem rejectReserved_eq (s : State) : ∃ k, rejectReserved s = .next (s.respond k 0) := by
  cases hf : s.isFaulted
  · exact ⟨_, rejectReserved_unfaulted hf⟩
  · exact ⟨_, rejectReserved_faulted hf⟩

/-- Settles O46: every end of a command is an error, which is precise, or gives the response of no error (`exec_effect`); a step
is that, or the rejection of a reserved opcode, on the state without the packet. -/
theorem errorsChangeNothing : Obligations.ErrorsChangeNothing := by
  refine ⟨fun i s s' r h hr he => exec_error_precise h hr he, fun s s' r p rest hp h hr he => ?_⟩
  cases hd : decodePacket p with
  | ok i => exact exec_error_precise (s := s.consume rest) (step_of_decodePacket_ok hp hd ▸ h) hr he
  | error e =>
    obtain ⟨k, hk⟩ := rejectReserved_eq (s.consume rest)
    rw [step_of_decodePacket_error hp hd, hk] at h
    cases h
    exact respond_precise (s := s.consume rest) hr

end Sys2Proof.Machine

/-! PROOFS. 30_encoding.md: packets, the decoder and the encoder (R80 to R90). A format with a fixed LEN is one record of facts
(`FixedFormat`) from which both round trips follow; `decodePacket_cases` says once what the decoder answers for any opcode. -/

namespace Sys2Proof

/-! ### Operand formats -/

/-- `unpack` gives the fields of exactly `n` words, written out again by `words`, and keeps any other number of words. -/
structure FixedFormat {α : Type} (n : Nat) (unpack : List Word → Packed α) (words : α → List Word) : Prop where
  unpack_words : ∀ a, unpack (words a) = .fields a
  length_words : ∀ a, (words a).length = n
  exists_words : ∀ ws, ws.length = n → ∃ a, ws = words a
  unpack_other : ∀ ws, ws.length ≠ n → unpack ws = .otherLen ws

theorem fixedFormat_N : FixedFormat 0 unpackN (fun _ => []) where
  unpack_words _ := rfl
  length_words _ := rfl
  exists_words | [], _ => ⟨(), rfl⟩
  unpack_other ws h := by unfold unpackN; split <;> simp_all

theorem fixedFormat_one : FixedFormat 1 unpackOne (fun w => [w]) where
  unpack_words _ := rfl
  length_words _ := rfl
  exists_words | [w], _ => ⟨w, rfl⟩
  unpack_other ws h := by unfold unpackOne; split <;> simp_all

theorem fixedFormat_P : FixedFormat 2 unpackP PointOps.words where
  unpack_words _ := rfl
  length_words _ := rfl
  exists_words | [x, y], _ => ⟨⟨x, y⟩, rfl⟩
  unpack_other ws h := by unfold unpackP; split <;> simp_all

theorem fixedFormat_PC : FixedFormat 3 unpackPC PixelOps.words where
  unpack_words _ := rfl
  length_words _ := rfl
  exists_words | [x, y, color], _ => ⟨⟨x, y, color⟩, rfl⟩
  unpack_other ws h := by unfold unpackPC; split <;> simp_all

theorem fixedFormat_L : FixedFormat 6 unpackL LineOps.words where
  unpack_words _ := rfl
  length_words _ := rfl
  exists_words | [color, thickness, x0, y0, x1, y1], _ => ⟨⟨color, thickness, x0, y0, x1, y1⟩, rfl⟩
  unpack_other ws h := by unfold unpackL; split <;> simp_all

theorem fixedFormat_R : FixedFormat 9 unpackR RectOps.words where
  unpack_words _ := rfl
  length_words _ := rfl
  exists_words
    | [color, thickness, x, y, width, height, corner, gradient, opacity], _ =>
      ⟨⟨color, thickness, x, y, width, height, corner, gradient, opacity⟩, rfl⟩
  unpack_other ws h := by unfold unpackR; split <;> simp_all

theorem fixedFormat_B : FixedFormat 10 unpackB BlitOps.words where
  unpack_words _ := rfl
  length_words _ := rfl
  exists_words
    | [xDst, yDst, widthDst, heightDst, src, xSrc, ySrc, widthSrc, heightSrc, opacity], _ =>
      ⟨⟨xDst, yDst, widthDst, heightDst, src, xSrc, ySrc, widthSrc, heightSrc, opacity⟩, rfl⟩
  unpack_other ws h := by unfold unpackB; split <;> simp_all

/-- Reading the words of well-formed operands gives the operands back. -/
theorem FixedFormat.unpack_packed {α : Type} {n : Nat} {unpack : List Word → Packed α} {words : α → List Word}
    (hf : FixedFormat n unpack words) {o : Packed α} (h : o.wfExact n = true) : unpack (o.words words) = o := by
  cases o with
  | fields a => exact hf.unpack_words a
  | otherLen ws =>
    simp only [Packed.wfExact, Bool.and_eq_true, decide_eq_true_eq] at h
    exact hf.unpack_other ws h.1

/-- Operands as they are read write the words they came from, and are well-formed when LEN is 16 bits. -/
theorem FixedFormat.packed_unpack {α : Type} {n : Nat} {unpack : List Word → Packed α} {words : α → List Word}
    (hf : FixedFormat n unpack words) (ws : List Word) :
    (unpack ws).words words = ws ∧ (ws.length ≤ maxLen → (unpack ws).wfExact n = true) := by
  by_cases hn : ws.length = n
  · obtain ⟨a, rfl⟩ := hf.exists_words ws hn
    rw [hf.unpack_words]
    exact ⟨rfl, fun _ => rfl⟩
  · rw [hf.unpack_other ws hn]
    exact ⟨rfl, fun hl => by simp [Packed.wfExact, hn, hl]⟩

theorem unpackT_short {ws : List Word} (h : ws.length < 6) : unpackT ws = .otherLen ws := by
  unfold unpackT
  split
  · simp only [List.length_cons] at h; omega
  · rfl

theorem unpackT_packed {o : Packed TextOps} (h : o.wfText = true) : unpackT (o.words TextOps.words) = o := by
  cases o with
  | fields a => rfl
  | otherLen ws =>
    simp only [Packed.wfText, decide_eq_true_eq] at h
    exact unpackT_short h

theorem packed_unpackT (ws : List Word) :
    (unpackT ws).words TextOps.words = ws ∧ (ws.length ≤ maxLen → (unpackT ws).wfText = true) := by
  unfold unpackT
  split
  · refine ⟨rfl, fun hl => ?_⟩
    simp only [List.length_cons] at hl
    simp only [Packed.wfText, decide_eq_true_eq]
    omega
  · next hshort =>
    refine ⟨rfl, fun _ => decide_eq_true (Nat.lt_of_not_le fun hl => ?_)⟩
    match ws, hl with
    | a :: b :: c :: d :: e :: f :: text, _ => exact hshort a b c d e f text rfl

/-! ### Decoding what was encoded -/

/-- The packet of a well-formed command decodes to the command. -/
theorem decodePacket_encode {i : Instr} (h : i.WellFormed) : decodePacket ⟨i.header, i.operandWords⟩ = .ok i := by
  have hopc : headerOpc i.header = i.opc := headerOpc_headerWord ..
  have hsurf : headerSurf i.header = i.surf := headerSurf_headerWord ..
  unfold decodePacket
  rw [hopc, hsurf]
  cases i with
  | rDrawEllipse t ws => rfl
  | rDrawTextInRect t ws => rfl
  | rDrawText t o => exact congr(Except.ok (Instr.rDrawText t $(unpackT_packed h)))
  | dtGetPixel t o => exact congr(Except.ok (Instr.dtGetPixel t $(fixedFormat_P.unpack_packed h)))
  | rGetPixel t o => exact congr(Except.ok (Instr.rGetPixel t $(fixedFormat_P.unpack_packed h)))
  | dtSetPixel t o => exact congr(Except.ok (Instr.dtSetPixel t $(fixedFormat_PC.unpack_packed h)))
  | rSetPixel t o => exact congr(Except.ok (Instr.rSetPixel t $(fixedFormat_PC.unpack_packed h)))
  | rDrawLine t o => exact congr(Except.ok (Instr.rDrawLine t $(fixedFormat_L.unpack_packed h)))
  | rDrawRect t o => exact congr(Except.ok (Instr.rDrawRect t $(fixedFormat_R.unpack_packed h)))
  | rStretchImage t o => exact congr(Except.ok (Instr.rStretchImage t $(fixedFormat_B.unpack_packed h)))
  | dtClear t o => exact congr(Except.ok (Instr.dtClear t $(fixedFormat_one.unpack_packed h)))
  | rFlush t o => exact congr(Except.ok (Instr.rFlush t $(fixedFormat_one.unpack_packed h)))
  | sysRdReg t o => exact congr(Except.ok (Instr.sysRdReg t $(fixedFormat_one.unpack_packed h)))
  | dtGetData t o => exact congr(Except.ok (Instr.dtGetData t $(fixedFormat_N.unpack_packed h)))
  | dtFlush t o => exact congr(Except.ok (Instr.dtFlush t $(fixedFormat_N.unpack_packed h)))
  | dtDispose t o => exact congr(Except.ok (Instr.dtDispose t $(fixedFormat_N.unpack_packed h)))
  | dtWidth t o => exact congr(Except.ok (Instr.dtWidth t $(fixedFormat_N.unpack_packed h)))
  | dtHeight t o => exact congr(Except.ok (Instr.dtHeight t $(fixedFormat_N.unpack_packed h)))
  | rClear t o => exact congr(Except.ok (Instr.rClear t $(fixedFormat_N.unpack_packed h)))
  | rGetBitmap t o => exact congr(Except.ok (Instr.rGetBitmap t $(fixedFormat_N.unpack_packed h)))
  | rWidth t o => exact congr(Except.ok (Instr.rWidth t $(fixedFormat_N.unpack_packed h)))
  | rHeight t o => exact congr(Except.ok (Instr.rHeight t $(fixedFormat_N.unpack_packed h)))

/-- The packet of a well-formed command is what the command port hands on. -/
theorem splitPacket_encode {i : Instr} (h : i.WellFormed) (rest : List Word) :
    splitPacket (encode i ++ rest) = some (⟨i.header, i.operandWords⟩, rest) :=
  splitPacket_append _ _ _ (headerLen_headerWord _ _ (Instr.length_le h))

/-- Settles O2: the packet is split off whole (`splitPacket_encode`) and decodes to the command (`decodePacket_encode`). -/
theorem decodeOfEncode : Obligations.DecodeOfEncode := by
  intro i rest h
  simp only [decode, splitPacket_encode h, decodePacket_encode h]

/-! ### Encoding what was decoded -/

/-- The 22 opcodes (R88). -/
def opcodes : List Byte :=
  [0x01, 0x02, 0x03, 0x04, 0x05, 0x06, 0x07, 0x08, 0x10, 0x11, 0x12, 0x13, 0x14, 0x15, 0x16, 0x17, 0x18, 0x19, 0x1A, 0x1B,
    0x1C, 0x20]

theorem Instr.opc_mem_opcodes (i : Instr) : i.opc ∈ opcodes := by
  cases i <;> exact of_decide_eq_true rfl

/-- What the decoder can answer on packet `p`: a command with the packet's opcode, surface and operand words, well-formed when
LEN is 16 bits, or the reserved opcode. -/
inductive Decoded (p : Packet) : Except DecodeError Instr → Prop
  | command (i : Instr) (hopc : headerOpc p.header = i.opc) (hsurf : headerSurf p.header = i.surf)
    (hwords : i.operandWords = p.ops ∧ (p.ops.length ≤ maxLen → i.WellFormed)) : Decoded p (.ok i)
  | reserved (h : headerOpc p.header ∉ opcodes) : Decoded p (.error (.reservedOpcode (headerOpc p.header)))

theorem decodePacket_decoded (p : Packet) : Decoded p (decodePacket p) := by
  unfold decodePacket
  split
  · next h => exact .command _ h rfl (fixedFormat_P.packed_unpack _)
  · next h => exact .command _ h rfl (fixedFormat_PC.packed_unpack _)
  · next h => exact .command _ h rfl (fixedFormat_one.packed_unpack _)
  · next h => exact .command _ h rfl (fixedFormat_N.packed_unpack _)
  · next h => exact .command _ h rfl (fixedFormat_N.packed_unpack _)
  · next h => exact .command _ h rfl (fixedFormat_N.packed_unpack _)
  · next h => exact .command _ h rfl (fixedFormat_N.packed_unpack _)
  · next h => exact .command _ h rfl (fixedFormat_N.packed_unpack _)
  · next h => exact .command _ h rfl (fixedFormat_N.packed_unpack _)
  · next h => exact .command _ h rfl (fixedFormat_P.packed_unpack _)
  · next h => exact .command _ h rfl (fixedFormat_PC.packed_unpack _)
  · next h => exact .command _ h rfl (fixedFormat_L.packed_unpack _)
  · next h => exact .command _ h rfl (fixedFormat_R.packed_unpack _)
  · next h => exact .command _ h rfl ⟨rfl, fun hl => decide_eq_true hl⟩
  · next h => exact .command _ h rfl (packed_unpackT _)
  · next h => exact .command _ h rfl ⟨rfl, fun hl => decide_eq_true hl⟩
  · next h => exact .command _ h rfl (fixedFormat_B.packed_unpack _)
  · next h => exact .command _ h rfl (fixedFormat_N.packed_unpack _)
  · next h => exact .command _ h rfl (fixedFormat_one.packed_unpack _)
  · next h => exact .command _ h rfl (fixedFormat_N.packed_unpack _)
  · next h => exact .command _ h rfl (fixedFormat_N.packed_unpack _)
  · next h => exact .command _ h rfl (fixedFormat_one.packed_unpack _)
  · exact .reserved (by simp_all [opcodes])

/-- A header word is made of its three fields (R81). -/
theorem headerWord_fields (h : Word) : headerWord (headerOpc h) (headerSurf h) (headerLen h) = h := by
  unfold headerWord headerOpc headerSurf headerLen
  rw [BitVec.ofNat_toNat, BitVec.setWidth_eq, BitVec.extractLsb'_append_extractLsb'_eq_extractLsb' (by decide),
    BitVec.extractLsb'_append_extractLsb'_eq_extractLsb' (by decide)]
  exact BitVec.extractLsb'_eq_self

theorem headerLen_le (h : Word) : headerLen h ≤ maxLen :=
  Nat.le_of_lt_succ (h.extractLsb' 16 16).isLt

/-- The words of a command that was decoded are the packet's: its opcode, its surface and its LEN make up the header. -/
theorem encode_of_decodePacket {p : Packet} {i : Instr} (h : decodePacket p = .ok i)
    (hlen : headerLen p.header = p.ops.length) : i.WellFormed ∧ encode i = p.header :: p.ops := by
  cases h ▸ decodePacket_decoded p with
  | command _ hopc hsurf hwords =>
    obtain ⟨hops, hwf⟩ := hwords
    refine ⟨hwf (hlen ▸ headerLen_le _), ?_⟩
    rw [encode, Instr.header, hops, ← hopc, ← hsurf, ← hlen, headerWord_fields]

/-- Settles O3: splitting off a packet loses no word, and neither does decoding it (`encode_of_decodePacket`). -/
theorem encodeOfDecode : Obligations.EncodeOfDecode := by
  intro ws rest i h
  unfold decode at h
  split at h
  · cases h
  · next p rest' hp =>
    obtain ⟨rfl, hlen⟩ := splitPacket_some hp
    split at h
    · next hd =>
      cases h
      obtain ⟨hwf, hencode⟩ := encode_of_decodePacket hd hlen
      exact ⟨hwf, by rw [hencode, List.cons_append]⟩
    · cases h

theorem decodePacket_reserved {p : Packet} (h : headerOpc p.header ∉ opcodes) :
    decodePacket p = .error (.reservedOpcode (headerOpc p.header)) := by
  have hd := decodePacket_decoded p
  generalize decodePacket p = r at hd ⊢
  cases hd with
  | command i hopc _ _ => exact absurd (hopc ▸ i.opc_mem_opcodes) h
  | reserved _ => rfl

theorem decodePacket_command {p : Packet} (h : headerOpc p.header ∈ opcodes) :
    ∃ i, decodePacket p = .ok i ∧ i.opc = headerOpc p.header ∧ i.surf = headerSurf p.header := by
  have hd := decodePacket_decoded p
  generalize decodePacket p = r at hd ⊢
  cases hd with
  | command i hopc hsurf _ => exact ⟨i, rfl, hopc.symm, hsurf.symm⟩
  | reserved hn => exact absurd h hn

/-- Settles O4: a command always has one of the 22 opcodes, so the decoder answers one exactly when the header's is. -/
theorem opcodeSelectsCommand : Obligations.OpcodeSelectsCommand := fun _ =>
  ⟨decodePacket_command, decodePacket_reserved⟩

end Sys2Proof

namespace Sys2Proof.Machine

/-! ### A step on the words at the command port -/

theorem step_of_no_packet {s : State} (h : splitPacket s.port = none) : step s = .next s := by
  simp [step, h, waitForWords]

theorem splitPacket_short {h : Word} {ws : List Word} (hlt : ws.length < headerLen h) : splitPacket (h :: ws) = none :=
  if_pos hlt

/-- Settles O6: without a whole packet there is nothing to split off. -/
theorem stepWaitsForMissingWords : Obligations.StepWaitsForMissingWords := by
  rintro s (h | ⟨h, ws, hport, hlt⟩)
  · exact step_of_no_packet (by rw [h]; rfl)
  · exact step_of_no_packet (hport ▸ splitPacket_short hlt)

/-- Settles O5: the packet split off is the command's, and it decodes to the command. -/
theorem stepRunsDecodedInstruction : Obligations.StepRunsDecodedInstruction := fun _ _ rest hwf hport =>
  step_of_decodePacket_ok (hport ▸ splitPacket_encode hwf rest) (decodePacket_encode hwf)

theorem rejectReserved_respond (s : State) :
    rejectReserved s = .next (s.respond (if s.isFaulted then .faulted else .illegalCommand) 0) := by
  cases hf : s.isFaulted
  · exact rejectReserved_unfaulted hf
  · exact rejectReserved_faulted hf

/-- Settles O7: the packet with its announced operands is split off, does not decode and is rejected on the state
without it. -/
theorem reservedOpcodeConsumedAndRejected : Obligations.ReservedOpcodeConsumedAndRejected := by
  intro s h ops rest hport hlen hopc
  rw [step_of_decodePacket_error (hport ▸ splitPacket_append h ops rest hlen) (decodePacket_reserved (p := ⟨h, ops⟩) hopc),
    rejectReserved_respond]
  have hf : (s.consume rest).isFaulted = s.status.getLsbD 0 := rfl
  rw [hf]
  cases s.status.getLsbD 0 <;> rfl

/-- Settles O1: the words evaluated. -/
theorem specWordsDecode : Obligations.SpecWordsDecode :=
  ⟨rfl, rfl, rfl, rfl, rfl, rfl⟩

/-! ### Exactly one response -/

/-- The response that a command of the given kind, or a reserved opcode, can get (R86, 60_exceptions.md R261). -/
def AnswerOk (valued : Prop) (r : Response) : Prop :=
  r.code.toNat ≤ 7 ∧ (r.code ≠ 0 → r.value = 0) ∧ (¬ valued → r.value = 0)

theorem Code.number_le (c : Code) : c.number.toNat ≤ 7 := by
  cases c <;> decide

theorem answerOk_zero (valued : Prop) (c : Code) : AnswerOk valued ⟨c.number, 0⟩ :=
  ⟨c.number_le, fun _ => rfl, fun _ => rfl⟩

theorem Effect.answer {i : Instr} {s s' : State} (h : Effect i s s') :
    s'.port = s.port ∧ ∃ r, s'.resp = s.resp ++ [r] ∧ AnswerOk (ReturnsValue i) r := by
  cases h with
  | error c _ => exact ⟨rfl, _, rfl, answerOk_zero _ c⟩
  | value v hv => exact ⟨rfl, ⟨0, v⟩, rfl, Code.number_le .ok, fun h => absurd rfl h, hv⟩
  | event e _ => exact ⟨rfl, _, rfl, answerOk_zero _ .ok⟩
  | clear _ _ => exact ⟨rfl, _, rfl, answerOk_zero _ .ok⟩
  | drawn t _ _ ho => exact ⟨ho.port, _, congrArg (· ++ _) ho.resp, answerOk_zero _ .ok⟩
  | fault f t _ _ ho _ => exact ⟨ho.port, _, congrArg (· ++ _) ho.resp, answerOk_zero _ f.code⟩

theorem exec_answers (i : Instr) (s : State) :
    ∃ s', exec i s = .next s' ∧ s'.port = s.port ∧ ∃ r, s'.resp = s.resp ++ [r] ∧ AnswerOk (ReturnsValue i) r :=
  let ⟨s', h, heffect⟩ := exec_effect i s
  ⟨s', h, heffect.answer⟩

/-- A whole packet is consumed and gets one response. -/
theorem step_answers {s : State} {p : Packet} {rest : List Word} (hp : splitPacket s.port = some (p, rest)) :
    ∃ s', step s = .next s' ∧ s'.port = rest ∧
      ∃ r, s'.resp = s.resp ++ [r] ∧ AnswerOk (∃ i, decodePacket p = .ok i ∧ ReturnsValue i) r := by
  cases hd : decodePacket p with
  | ok i =>
    obtain ⟨s', h, hport, r, hresp, hcode, hzero, hvalue⟩ := exec_answers i (s.consume rest)
    exact ⟨s', (step_of_decodePacket_ok hp hd).trans h, hport, r, hresp, hcode, hzero,
      fun hn => hvalue fun hi => hn ⟨i, rfl, hi⟩⟩
  | error e =>
    exact ⟨_, (step_of_decodePacket_error hp hd).trans (rejectReserved_respond _), rfl, _, rfl, answerOk_zero _ _⟩

/-- Settles O44: `exec_answers` for a command, `step_answers` for a packet. -/
theorem exactlyOneResponse : Obligations.ExactlyOneResponse := by
  refine ⟨fun i s => ?_, fun s p rest hp => ?_⟩
  · obtain ⟨s', h, -, r, hresp, hr⟩ := exec_answers i s
    exact ⟨s', r, h, hresp, hr⟩
  · obtain ⟨s', h, hport, r, hresp, hcode, hzero, hvalue⟩ := step_answers hp
    exact ⟨s', r, h, hport, hresp, hcode, hzero, fun hn => hvalue fun ⟨i, hi, hv⟩ => hn i hi hv⟩

/-- Settles O45: without a whole packet the step waits; with one it answers it (`step_answers`). -/
theorem stepAlwaysAnswers : Obligations.StepAlwaysAnswers := by
  intro s
  cases hp : splitPacket s.port with
  | none => exact ⟨s, step_of_no_packet hp, fun _ => rfl, nofun⟩
  | some pr =>
    obtain ⟨p, rest⟩ := pr
    obtain ⟨s', h, hport, r, hresp, -⟩ := step_answers hp
    refine ⟨s', h, nofun, fun p' rest' h => ?_⟩
    cases h
    exact ⟨hport, r, hresp⟩

end Sys2Proof.Machine

/-! PROOFS. The rules of the whole machine (10_state.md, 60_exceptions.md section 4, 70_reset_and_hazards.md): what a command
may write, the fault record, the invariant and reset. Each is a case analysis on the ends of a command (`Effect`). -/

namespace Sys2Proof.Machine

/-! ### What a command writes -/

/-- A surface whose buffer is as before shows the same bytes at the transfer port. -/
theorem xferRead_of_buf_eq {s s' : State} {u : Nat} (hc : s'.cfg = s.cfg) (hb : s'.buf u = s.buf u) (o : Nat) :
    xferRead s' u o = xferRead s u o :=
  xferRead_congr hc fun _ => by rw [State.readByte, State.readByte, State.initBuf, State.initBuf, hc, hb]

/-- The frame of a command on surface `t`, which may (`wb`) write its buffer and may (`wo`) write `OUT`. -/
structure WritesOnly (t : Nat) (wb wo : Prop) (s s' : State) : Prop where
  other : ∀ u, u ≠ t → s'.buf u = s.buf u
  bufs  : ¬ wb → s'.bufs = s.bufs
  out   : ¬ wo → s'.out = s.out
  cfg   : s'.cfg = s.cfg
  port  : s'.port = s.port

theorem Effect.writesOnly {i : Instr} {s s' : State} (h : Effect i s s') :
    WritesOnly i.surf.toNat (WritesBuffer i) (WritesOut i) s s' := by
  cases h with
  | error c _ => exact ⟨fun _ _ => rfl, fun _ => rfl, fun _ => rfl, rfl, rfl⟩
  | value v _ => exact ⟨fun _ _ => rfl, fun _ => rfl, fun _ => rfl, rfl, rfl⟩
  | event e ho => exact ⟨fun _ _ => rfl, fun _ => rfl, fun hn => absurd ho hn, rfl, rfl⟩
  | clear hw _ => exact ⟨fun u hu => s.setBuf_buf_ne _ hu, fun hn => absurd hw hn, fun _ => rfl, rfl, rfl⟩
  | drawn t hw _ ho => exact ⟨ho.other, fun hn => absurd hw hn, fun _ => ho.out, ho.cfg, ho.port⟩
  | fault f t hw _ ho _ =>
    exact ⟨ho.other, fun hn => hw.elim (absurd · hn) (congrArg State.bufs), fun _ => ho.out, ho.cfg, ho.port⟩

/-- Settles O49: the frame of every end of a command (`Effect.writesOnly`), a buffer seen through the transfer port. -/
theorem commandsWriteOnlyTheirState : Obligations.CommandsWriteOnlyTheirState := by
  intro i s s' h
  obtain ⟨hother, hbufs, hout, hcfg, hport⟩ := (Effect.of_exec h).writesOnly
  exact ⟨fun u o hu => xferRead_of_buf_eq hcfg (hother u hu) o, hbufs, hout, hcfg, hport⟩

/-! ### The fault record -/

/-- The four registers of the fault record are as before. -/
def SameRecord (s s' : State) : Prop :=
  s'.status = s.status ∧ s'.finfo0 = s.finfo0 ∧ s'.finfo1 = s.finfo1 ∧ s'.fcmd = s.fcmd

theorem OnlyBuf.sameRecord {t : Nat} {s s' : State} (h : OnlyBuf t s s') : SameRecord s s' :=
  ⟨h.status, h.finfo0, h.finfo1, h.fcmd⟩

theorem faultStatus_eq (code : Byte) : faultStatus code = 0#16 ++ code ++ 0x01#8 := by
  decide +revert

theorem Raise.code_number (f : Raise) : f.code.number = 5 ∨ f.code.number = 6 := by
  cases f
  · exact .inl rfl
  · exact .inr rfl

/-- Fault entry, as the statements name it. -/
theorem OnlyBuf.faultedWith {t : Nat} {s s' : State} (h : OnlyBuf t s s') (header : Word) (f : Raise) :
    s.FaultedWith (takeFault header f s') f.code.number f.info0 f.info1 header :=
  ⟨faultStatus_eq _, rfl, rfl, rfl, congrArg (· ++ _) h.resp, h.cfg, h.out, h.port⟩

/-- The response of a command that took no fault is not the response of one. -/
theorem append_ne_fault {c : Code} {v : Word} (l : List Response) (hc : c ≠ .pixelRange ∧ c ≠ .glyphRange) :
    l ++ [⟨c.number, v⟩] ≠ l ++ [⟨5, 0⟩] ∧ l ++ [⟨c.number, v⟩] ≠ l ++ [⟨6, 0⟩] := by
  have hcode {k : Code} (h : l ++ [⟨c.number, v⟩] = l ++ [⟨k.number, 0⟩]) : c = k :=
    Code.number_injective (congrArg Response.code (last_eq_of_append_eq h))
  exact ⟨fun h => hc.1 (hcode h), fun h => hc.2 (hcode h)⟩

/-- A command either leaves the fault record and answers no fault, or enters a fault from a machine that is not faulted. -/
theorem Effect.record {i : Instr} {s s' : State} (h : Effect i s s') :
    (SameRecord s s' ∧ s'.resp ≠ s.resp ++ [⟨5, 0⟩] ∧ s'.resp ≠ s.resp ++ [⟨6, 0⟩]) ∨
      (s.isFaulted = false ∧ ∃ f : Raise, s.FaultedWith s' f.code.number f.info0 f.info1 i.header) := by
  cases h with
  | error c hc =>
    refine .inl ⟨⟨rfl, rfl, rfl, rfl⟩, append_ne_fault _ ?_⟩
    rcases hc with rfl | rfl | rfl | rfl | rfl <;> simp
  | value v _ => exact .inl ⟨⟨rfl, rfl, rfl, rfl⟩, append_ne_fault s.resp (by simp)⟩
  | event e _ => exact .inl ⟨⟨rfl, rfl, rfl, rfl⟩, append_ne_fault s.resp (by simp)⟩
  | clear _ _ => exact .inl ⟨⟨rfl, rfl, rfl, rfl⟩, append_ne_fault s.resp (by simp)⟩
  | drawn t _ _ ho => exact .inl ⟨ho.sameRecord, ho.resp ▸ append_ne_fault t.resp (by simp)⟩
  | fault f t _ hr ho _ => exact .inr ⟨hr.1, f, ho.faultedWith i.header f⟩

/-- Settles O47: the two ends of `Effect.record`. -/
theorem recordChangesOnlyByFault : Obligations.RecordChangesOnlyByFault := by
  intro i s s' h
  rcases (Effect.of_exec h).record with ⟨⟨hstatus, h0, h1, hcmd⟩, h5, h6⟩ | ⟨hf, f, hstatus, -, -, hrest⟩
  · exact .inl ⟨hstatus, h0, h1, hcmd, h5, h6⟩
  · exact .inr ⟨hf, _, f.code_number, hstatus, rfl, rfl, hrest⟩

/-- While FAULT = 1 a command only answers. -/
theorem exec_faulted_respond {s : State} (hf : s.isFaulted = true) (i : Instr) :
    ∃ c v, exec i s = .next (s.respond c v) := by
  obtain ⟨s', h, heffect⟩ := exec_effect i s
  by_cases hi : ∃ t o, i = .sysRdReg t o
  · obtain ⟨t, o, rfl⟩ := hi
    cases heffect with
    | error c _ => exact ⟨_, _, h⟩
    | value v _ => exact ⟨_, _, h⟩
    | event e ho => exact ho.elim
    | clear hw _ => exact hw.elim
    | drawn _ hw _ _ => exact hw.elim
    | fault f _ _ hr _ _ => exact absurd (hr.1.symm.trans hf) Bool.false_ne_true
  · exact ⟨_, _, exec_faulted hf fun t o e => hi ⟨t, o, e⟩⟩

theorem step_faulted {s s' : State} (hf : s.isFaulted = true) (h : step s = .next s') :
    s' = s ∨ ∃ rest c v, s' = (s.consume rest).respond c v := by
  cases hp : splitPacket s.port with
  | none =>
    rw [step_of_no_packet hp] at h
    cases h
    exact .inl rfl
  | some pr =>
    obtain ⟨p, rest⟩ := pr
    right
    cases hd : decodePacket p with
    | ok i =>
      obtain ⟨c, v, hexec⟩ := exec_faulted_respond (s := s.consume rest) hf i
      rw [step_of_decodePacket_ok hp hd, hexec] at h
      cases h
      exact ⟨rest, c, v, rfl⟩
    | error e =>
      rw [step_of_decodePacket_error hp hd, rejectReserved_respond] at h
      cases h
      exact ⟨rest, _, _, rfl⟩

/-- Settles O48: a step from a faulted state waits, or consumes a packet and answers (`step_faulted`). -/
theorem faultIsSticky : Obligations.FaultIsSticky := by
  intro s s' hf h
  rcases step_faulted hf h with rfl | ⟨rest, c, v, rfl⟩
  · exact ⟨rfl, rfl, rfl, rfl, rfl, rfl, rfl⟩
  · exact ⟨rfl, rfl, rfl, rfl, rfl, rfl, rfl⟩

/-! ### The invariant -/

theorem State.Inv.consume {s : State} (h : s.Inv) (rest : List Word) : (s.consume rest).Inv :=
  ⟨h.config, h.bufs, h.record, h.answers⟩

theorem State.Inv.emit {s : State} (h : s.Inv) (e : Event) : (s.emit e).Inv :=
  ⟨h.config, h.bufs, h.record, h.answers⟩

theorem State.Inv.bulkClear {s : State} (h : s.Inv) (t : Nat) : (s.bulkClear t).Inv :=
  ⟨h.config, h.bufs.bulkClear t, h.record, h.answers⟩

theorem OnlyBuf.recordOk {t : Nat} {s s' : State} (ho : OnlyBuf t s s') (h : s.RecordOk) : s'.RecordOk := by
  unfold State.RecordOk
  rwa [ho.cfg, ho.status, ho.finfo0, ho.finfo1, ho.fcmd]

theorem OnlyBuf.inv {t : Nat} {s s' : State} (ho : OnlyBuf t s s') (h : s.Inv) : s'.Inv :=
  ⟨ho.cfg ▸ h.config, ho.canon h.bufs, ho.recordOk h.record, ho.resp ▸ h.answers⟩

theorem responses_ok_append {rs : List Response} {r : Response} (h : ∀ r ∈ rs, r.Ok) (hr : r.Ok) :
    ∀ r' ∈ rs ++ [r], r'.Ok := by
  simpa [or_imp, forall_and] using ⟨h, hr⟩

theorem response_ok_zero (c : Code) : Response.Ok ⟨c.number, 0⟩ := ⟨c.number_le, fun _ => rfl⟩

theorem State.Inv.respond {s : State} (h : s.Inv) {c : Code} {v : Word} (hr : Response.Ok ⟨c.number, v⟩) :
    (s.respond c v).Inv :=
  ⟨h.config, h.bufs, h.record, responses_ok_append h.answers hr⟩

/-- Fault entry of a command that can raise the fault, on a surface that exists, leaves a legal record (10_state.md R23). -/
theorem CanRaise.recordOk {i : Instr} {f : Raise} {s : State} (h : CanRaise i f) (ht : i.surf.toNat < s.cfg.nsurf) :
    (takeFault i.header f s).RecordOk := by
  have hopc : headerOpc i.header = i.opc := headerOpc_headerWord ..
  have hsurf : (headerSurf i.header).toNat < s.cfg.nsurf := by
    rwa [show headerSurf i.header = i.surf from headerSurf_headerWord ..]
  rcases h with ⟨x, y, rfl, hpixel⟩ | ⟨p, k, rfl, htext, hp, hp32⟩
  · exact .inr (.inl ⟨faultStatus_pixelRange, hopc ▸ hpixel, hsurf⟩)
  · refine .inr (.inr ⟨faultStatus_glyphRange, hopc.trans htext, hsurf, ?_⟩)
    rwa [takeFault_finfo0, Raise.info0, BitVec.toNat_ofNat, Nat.mod_eq_of_lt hp32]

theorem State.Inv.takeFault {s : State} (h : s.Inv) {i : Instr} {f : Raise} (hf : CanRaise i f)
    (ht : i.surf.toNat < s.cfg.nsurf) : (takeFault i.header f s).Inv :=
  ⟨h.config, h.bufs, hf.recordOk ht, responses_ok_append h.answers (response_ok_zero _)⟩

/-- Every command keeps the invariant. -/
theorem Effect.inv {i : Instr} {s s' : State} (h : Effect i s s') (hinv : s.Inv) : s'.Inv := by
  cases h with
  | error c _ => exact hinv.respond (response_ok_zero c)
  | value v _ => exact hinv.respond ⟨Code.number_le .ok, fun h => absurd rfl h⟩
  | event e _ => exact (hinv.emit e).respond (response_ok_zero .ok)
  | clear _ _ => exact (hinv.bulkClear _).respond (response_ok_zero .ok)
  | drawn t _ _ ho => exact (ho.inv hinv).respond (response_ok_zero .ok)
  | fault f t _ hr ho hf => exact (ho.inv hinv).takeFault hf (ho.cfg ▸ hr.2)

/-- Settles O55: the packet's command keeps the invariant (`Effect.inv`), and so does rejecting a reserved opcode or waiting. -/
theorem stepKeepsInvariant : Obligations.StepKeepsInvariant := by
  intro s s' hinv h
  cases hp : splitPacket s.port with
  | none =>
    rw [step_of_no_packet hp] at h
    cases h
    exact hinv
  | some pr =>
    obtain ⟨p, rest⟩ := pr
    cases hd : decodePacket p with
    | ok i =>
      rw [step_of_decodePacket_ok hp hd] at h
      exact (Effect.of_exec h).inv (hinv.consume rest)
    | error e =>
      rw [step_of_decodePacket_error hp hd, rejectReserved_respond] at h
      cases h
      exact (hinv.consume rest).respond (response_ok_zero _)

/-! ### Reset -/

theorem State.resetWith_buf (c : Config) (t : Nat) : (State.resetWith c).buf t = [] := by
  rw [State.buf, State.resetWith_bufs, List.getD_eq_getElem?_getD, List.getElem?_replicate]
  split <;> rfl

theorem inv_resetWith {c : Config} (h : c.wf = true) : (State.resetWith c).Inv where
  config := h
  bufs := ⟨List.length_replicate, fun t _ => by rw [State.resetWith_buf, Memory.wf_nil]⟩
  record := .inl ⟨rfl, rfl, rfl, rfl⟩
  answers := nofun

theorem config_tc_wf : Config.tc.wf = true := by decide +kernel

/-- Settles O54: after reset the buffers list nothing, the record is 0 and nothing was answered. -/
theorem invariantAtReset : Obligations.InvariantAtReset :=
  ⟨fun _ h => inv_resetWith h, inv_resetWith config_tc_wf⟩

theorem getD_reinit {ds : List SurfaceConfig} {bs : List (List Byte)} (h : bs.length = ds.length) (t : Nat) :
    (reinit ds bs).getD t ⟨0, 0, []⟩ =
      ⟨(ds.getD t ⟨0, 0, []⟩).width, (ds.getD t ⟨0, 0, []⟩).height, bs.getD t []⟩ := by
  induction ds generalizing bs t with
  | nil => cases List.eq_nil_of_length_eq_zero h; rfl
  | cons d ds ih =>
    obtain _ | ⟨b, bs⟩ := bs
    · cases h
    · cases t with
      | zero => rfl
      | succ t => simpa [reinit] using ih (by simpa using h) t

theorem length_reinit (ds : List SurfaceConfig) (bs : List (List Byte)) : (reinit ds bs).length = ds.length := by
  induction ds generalizing bs with
  | nil => rfl
  | cons d ds ih => cases bs <;> simp [reinit, ih]

/-- After reset a surface has the size it had and holds the new contents. -/
theorem assertReset_surface {s : State} {inits : List (List Byte)} (h : inits.length = s.cfg.nsurf) (t : Nat) :
    (s.assertReset inits).cfg.surface t = ⟨s.cfg.width t, s.cfg.height t, inits.getD t []⟩ :=
  getD_reinit h t

theorem readByte_assertReset {s : State} {inits : List (List Byte)} (h : inits.length = s.cfg.nsurf) (t o : Nat) :
    (s.assertReset inits).readByte t o = (inits.getD t []).getD o 0 := by
  have hbuf : (s.assertReset inits).buf t = [] := State.resetWith_buf _ t
  rw [State.readByte, hbuf, Memory.read_nil, State.initBuf, assertReset_surface h]
  rfl

/-- Settles O53: the registers are those of `State.resetWith`, and the surfaces are the old ones with the new contents
(`assertReset_surface`). -/
theorem resetClearsFaultAndKeepsParameters : Obligations.ResetClearsFaultAndKeepsParameters := by
  rintro s inits _ rfl hlen hinit
  have hw (t : Nat) : (s.assertReset inits).cfg.width t = s.cfg.width t := by
    rw [Config.width, assertReset_surface hlen]
  have hh (t : Nat) : (s.assertReset inits).cfg.height t = s.cfg.height t := by
    rw [Config.height, assertReset_surface hlen]
  have hn : (s.assertReset inits).cfg.nsurf = s.cfg.nsurf := length_reinit ..
  refine ⟨rfl, rfl, rfl, rfl, rfl, rfl, rfl, hn, rfl, rfl, rfl, fun t => ⟨hw t, hh t⟩, fun t o init b ht ho => ?_⟩
  obtain ⟨hlt, -⟩ := List.getElem?_eq_some_iff.mp ht
  obtain ⟨hlo, -⟩ := List.getElem?_eq_some_iff.mp ho
  have hin : o < (s.assertReset inits).cfg.bufLen t := by
    rw [Config.bufLen, hw, hh]
    exact hlo.trans_eq (hinit t init ht)
  rw [xferRead_of_lt _ (hn ▸ hlen ▸ hlt) hin, readByte_assertReset hlen]
  simp [List.getD_eq_getElem?_getD, ht, ho]

end Sys2Proof.Machine

/-! PROOFS. Memory (20_memory.md R51, R60, R62), canonical buffers, and the commands that run no drawing loop: pixels, clears,
sizes, flushes, `DT.DISPOSE`, the absent commands and `SYS.RDREG`. -/

namespace Sys2Proof.Machine

/-! ### Pixels in memory -/

theorem inRange_nat {c : Config} {t x y : Nat} (hx : x < c.width t) (hy : y < c.height t) :
    inRange c t (x : Int) (y : Int) = true :=
  (inRange_iff ..).mpr ⟨by omega, by omega, by omega, by omega⟩

/-- Settles O11: offsets are even, so pixels with different offsets share no byte, and different pixels have different offsets
(`pixelOffset_inj`). -/
theorem pixelsAreAlignedAndDisjoint : Obligations.PixelsAreAlignedAndDisjoint := by
  intro c t x y hx hy
  have hr := inRange_nat hx hy
  have heven (x y : Nat) : pixelOffset c t x y % 2 = 0 := pixelOffset_even c t (by omega) (by omega)
  refine ⟨pixelOffset_nat c t x y, heven x y, pixelOffset_lt hr, fun x' y' hx' hy' hne => ?_⟩
  have hoff : pixelOffset c t x y ≠ pixelOffset c t x' y' := fun e => by
    obtain ⟨hxx, hyy⟩ := pixelOffset_inj hr (inRange_nat hx' hy') e
    exact hne (by simp_all)
  have h := heven x y
  have h' := heven x' y'
  omega

/-- Settles O15: the port's own test, and its value a function of configuration and buffers. -/
theorem transferPortShowsBuffer : Obligations.TransferPortShowsBuffer := fun s _ o =>
  ⟨fun ⟨ht, ho⟩ => xferRead_of_lt s ht ho, fun hn => if_neg hn, fun _ hc hb =>
    xferRead_of_buf_eq hc (by rw [State.buf, State.buf, hb]) o⟩

/-! ### Canonical buffers -/

/-- In a canonical buffer an entry is listed exactly where the buffer reads as it and as no unlisted byte does. -/
theorem Memory.mem_iff_read {init : List Byte} {len : Nat} {m : Memory} (h : Memory.wf init len m = true)
    (c : Host.Cell) : c ∈ m ↔ Memory.read init m c.1 = c.2 ∧ c.2 ≠ Memory.unlisted init c.1 := by
  rw [Memory.wf_iff] at h
  induction m with
  | nil => simp +contextual [eq_comm]
  | cons d m ih =>
    obtain ⟨k, b⟩ := d
    obtain ⟨⟨hbelow, hrise⟩, hcells⟩ := h.imp_left List.pairwise_cons.mp
    obtain ⟨a, b'⟩ := c
    by_cases hk : k = a
    · subst hk
      have hnotin : (k, b') ∉ m := fun hm => Nat.lt_irrefl k (hbelow _ hm)
      have hlisted : b ≠ Memory.unlisted init k := (hcells _ List.mem_cons_self).2
      simp only [List.mem_cons, hnotin, or_false, Memory.read_cons, if_true, Prod.mk.injEq, true_and]
      exact ⟨fun e => ⟨e.symm, e ▸ hlisted⟩, fun e => e.1.symm⟩
    · have hne : (a, b') ≠ (k, b) := fun e => hk (congrArg Prod.fst e).symm
      rw [List.mem_cons, or_iff_right hne, Memory.read_cons, if_neg hk]
      exact ih ⟨hrise, fun e he => hcells e (List.mem_cons_of_mem _ he)⟩

/-- Settles O16: canonical buffers that read alike list the same entries (`Memory.mem_iff_read`), each in rising order. -/
theorem equalContentsAreEqualData : Obligations.EqualContentsAreEqualData := by
  intro init len m m' h h' hread
  have hrise := ((Memory.wf_iff ..).mp h).1
  have hrise' := ((Memory.wf_iff ..).mp h').1
  refine List.Pairwise.eq_of_mem_iff (r := fun c d => c.1 < d.1) hrise hrise' fun c => ?_
  rw [Memory.mem_iff_read h, Memory.mem_iff_read h', hread]

/-! ### The end of a drawing command -/

/-- OK after a drawing procedure that completed. -/
theorem OnlyBuf.completes {t : Nat} {s s' : State} (h : OnlyBuf t s s') :
    (s'.respond .ok 0).resp = s.resp ++ [⟨0, 0⟩] ∧ s.SameButBufs (s'.respond .ok 0) :=
  ⟨congrArg (· ++ _) h.resp, h.cfg, h.status, h.finfo0, h.finfo1, h.fcmd, h.out, h.port⟩

theorem Painted.completes {t : Nat} {v : Pixel} {P : Int → Int → Prop} {s s' : State} (h : Painted t v P s s')
    (header : Word) :
    ∃ s'', finish header (.done s') = .next s'' ∧ s''.resp = s.resp ++ [⟨0, 0⟩] ∧ s.SameButBufs s'' ∧
      PaintsOnly t v P s s'' :=
  let ⟨hresp, hsame⟩ := h.only.completes
  ⟨s'.respond .ok 0, rfl, hresp, hsame, h.paint⟩

theorem Painted.faults {t : Nat} {v : Pixel} {P : Int → Int → Prop} {s s' : State} (h : Painted t v P s s')
    (header : Word) (f : Raise) :
    ∃ s'', finish header (.raised f s') = .next s'' ∧ s.FaultedWith s'' f.code.number f.info0 f.info1 header ∧
      PaintsOnly t v P s s'' :=
  ⟨takeFault header f s', rfl, h.only.faultedWith header f, h.paint⟩

/-! ### Commands past the checks of decoding -/

section Ready

variable {s : State} {t : Byte} (hs : s.Ready t)
include hs

theorem exec_dtGetPixel_ready (o : PointOps) :
    exec (.dtGetPixel t (.fields o)) s = getPixelOp (headerWord opcDtGetPixel t 2) t 0 o s := withOperands_ready hs ..

theorem exec_rGetPixel_ready (o : PointOps) :
    exec (.rGetPixel t (.fields o)) s = getPixelOp (headerWord opcRGetPixel t 2) t s.cfg.alphaOut o s :=
  withOperands_ready hs ..

theorem exec_dtSetPixel_ready (o : PixelOps) :
    exec (.dtSetPixel t (.fields o)) s = setPixelOp (headerWord opcDtSetPixel t 3) t o s := withOperands_ready hs ..

theorem exec_rSetPixel_ready (o : PixelOps) :
    exec (.rSetPixel t (.fields o)) s = setPixelOp (headerWord opcRSetPixel t 3) t o s := withOperands_ready hs ..

theorem exec_dtClear_ready (color : Word) :
    exec (.dtClear t (.fields color)) s =
      if (color32 color).isBlack then clearOp t s else raiseError .unsupported s := by
  simp only [exec, execDtClear, withOperands_ready hs]

theorem exec_rClear_ready : exec (.rClear t (.fields ())) s = clearOp t s := withOperands_ready hs ..

theorem exec_dtFlush_ready : exec (.dtFlush t (.fields ())) s = returnOk 0 (s.emit (.dtFlush t)) := by
  simp only [exec, execDtFlush, withOperands_ready hs]

theorem exec_rFlush_ready (handle : Word) :
    exec (.rFlush t (.fields handle)) s = returnOk 0 (s.emit (.rFlush t handle)) := by
  simp only [exec, execRFlush, withOperands_ready hs]

theorem exec_dtDispose_ready : exec (.dtDispose t (.fields ())) s = returnOk 0 s := withOperands_ready hs ..

theorem exec_rDrawLine_ready (o : LineOps) :
    exec (.rDrawLine t (.fields o)) s =
      if s32 o.thickness ≠ 1 then raiseError .unsupported s
      else finish (headerWord opcRDrawLine t 6)
        (line t.toNat (enc565 (color32 o.color)) (s32 o.x0) (s32 o.y0) (s32 o.x1) (s32 o.y1) s) := by
  simp only [exec, execRDrawLine, withOperands_ready hs]

theorem exec_rDrawRect_ready (o : RectOps) :
    exec (.rDrawRect t (.fields o)) s =
      if s32 o.thickness ≠ 1 ∨ o.opacity ≠ s.cfg.fullOpacity then raiseError .unsupported s
      else if s32 o.width ≤ 0 ∨ s32 o.height ≤ 0 then returnOk 0 s
      else finish (headerWord opcRDrawRect t 9)
        (rectOutline t.toNat (enc565 (color32 o.color)) (s32 o.x) (s32 o.y) (s32 o.width) (s32 o.height) s) := by
  simp only [exec, execRDrawRect, withOperands_ready hs]

end Ready

/-! ### Pixel commands -/

/-- Settles O17: past the checks, both commands are `getPixelOp_of_inRange`. -/
theorem getPixelReturnsColour : Obligations.GetPixelReturnsColour := fun _ _ _ _ hs hr =>
  ⟨_, rfl, (exec_dtGetPixel_ready hs _).trans (getPixelOp_of_inRange hr),
    (exec_rGetPixel_ready hs _).trans (getPixelOp_of_inRange hr)⟩

/-- Settles O18: past the checks, both commands are one checked pixel write in range (`covers_pixWrite`). -/
theorem setPixelWritesPixel : Obligations.SetPixelWritesPixel := by
  intro s t x y color i hi hs hb hr
  obtain ⟨s', hdone, hpainted⟩ := (covers_pixWrite hb hs.2 x.toInt y.toInt (enc565 (color32 color))).completes
    (by rintro _ _ ⟨rfl, rfl⟩; exact hr)
  obtain ⟨s'', hfinish, hrest⟩ := hpainted.completes i.header
  refine ⟨s'', ?_, hrest⟩
  rw [← hfinish, ← hdone]
  rcases hi with rfl | rfl
  · exact exec_dtSetPixel_ready hs _
  · exact exec_rSetPixel_ready hs _

theorem low32_toInt (w : Word) : low32 w.toInt = w := BitVec.ofInt_toInt

/-- Settles O19: past the checks, each command is a checked pixel access that raises before it does anything. -/
theorem pixelCommandsFaultOutOfRange : Obligations.PixelCommandsFaultOutOfRange := by
  intro s t x y color i hi hs hr
  refine ⟨takeFault i.header (.pixelRange x.toInt y.toInt) s, ?_, ?_, rfl⟩
  · have hget (header : Word) (alpha : Byte) :
        getPixelOp header t alpha ⟨x, y⟩ s = .next (takeFault header (.pixelRange x.toInt y.toInt) s) := by
      rw [getPixelOp, s32, s32, pixRead_of_not_inRange hr]
    have hset (header : Word) :
        setPixelOp header t ⟨x, y, color⟩ s = .next (takeFault header (.pixelRange x.toInt y.toInt) s) := by
      rw [setPixelOp, s32, s32, pixWrite_of_not_inRange _ hr]
      rfl
    rcases hi with rfl | rfl | rfl | rfl
    · exact (exec_dtGetPixel_ready hs _).trans (hget ..)
    · exact (exec_rGetPixel_ready hs _).trans (hget ..)
    · exact (exec_dtSetPixel_ready hs _).trans (hset ..)
    · exact (exec_rSetPixel_ready hs _).trans (hset ..)
  · have h := OnlyBuf.faultedWith ((onlyBuf_closed t.toNat).refl s) i.header (.pixelRange x.toInt y.toInt)
    rwa [Raise.info0, Raise.info1, low32_toInt, low32_toInt] at h

/-! ### Clears -/

/-- Bits 31:24 of a colour are ignored (30_encoding.md R83). -/
theorem color32_congr {w w' : Word} (h : w.extractLsb' 0 24 = w'.extractLsb' 0 24) : color32 w = color32 w' := by
  have channel (k : Nat) (hk : k + 8 ≤ 24) : w.extractLsb' k 8 = w'.extractLsb' k 8 := by
    rw [← BitVec.extractLsb'_extractLsb'_of_le hk, h, BitVec.extractLsb'_extractLsb'_of_le hk]
  rw [color32, color32, channel 16 (by decide), channel 8 (by decide), channel 0 (by decide)]

theorem color32_of_and_eq_zero {w : Word} (h : w &&& 0x00FFFFFF = 0) : color32 w = ⟨0, 0, 0⟩ := by
  refine color32_congr (w' := 0) ?_
  calc w.extractLsb' 0 24 = (w &&& 0x00FFFFFF).extractLsb' 0 24 := by
        rw [BitVec.extractLsb'_and]; exact BitVec.and_allOnes.symm
    _ = (0 : Word).extractLsb' 0 24 := by rw [h]

/-- Settles O20: past the checks, both commands are `clearOp`, whose bytes O14 states. -/
theorem clearZeroesSurface : Obligations.ClearZeroesSurface := by
  intro s t color i hcolor hi hs hb
  obtain ⟨hzero, hother, -, -⟩ := bulkClearZeroesSurface s t.toNat hb hs.2
  refine ⟨(s.bulkClear t.toNat).respond .ok 0, ?_, rfl, ⟨rfl, rfl, rfl, rfl, rfl, rfl, rfl⟩, hzero, hother⟩
  rcases hi with rfl | rfl
  · rw [exec_dtClear_ready hs, color32_of_and_eq_zero hcolor]
    rfl
  · exact exec_rClear_ready hs

/-! ### Sizes -/

theorem surface_wf_of_config_wf {c : Config} (h : c.wf = true) {t : Nat} (ht : t < c.nsurf) : (c.surface t).wf = true := by
  simp only [Config.wf, Bool.and_eq_true, List.all_eq_true] at h
  obtain ⟨⟨⟨⟨⟨⟨-, -⟩, hsurfaces⟩, -⟩, -⟩, -⟩, -⟩ := h
  refine hsurfaces _ ?_
  rw [Config.surface, List.getD_eq_getElem _ _ ht]
  exact List.getElem_mem ht

/-- R10's constraints on the size of a surface that exists. -/
theorem size_bounds_of_config_wf {c : Config} (h : c.wf = true) {t : Nat} (ht : t < c.nsurf) :
    1 ≤ c.width t ∧ 1 ≤ c.height t ∧ c.bufLen t < 2 ^ 31 := by
  have hs := surface_wf_of_config_wf h ht
  simp only [SurfaceConfig.wf, Bool.and_eq_true, decide_eq_true_eq] at hs
  obtain ⟨⟨⟨hw, hh⟩, hlen⟩, -⟩ := hs
  exact ⟨hw, hh, by unfold Config.bufLen Config.width Config.height; omega⟩

/-- Settles O21: each command answers its number as a word, and R10's bounds make the numbers fit. -/
theorem sizeCommandsAnswerSizes : Obligations.SizeCommandsAnswerSizes := by
  intro s t hs hwf
  obtain ⟨hw, hh, hlen⟩ := size_bounds_of_config_wf hwf hs.2
  have hwle : s.cfg.width t.toNat ≤ s.cfg.width t.toNat * s.cfg.height t.toNat := Nat.le_mul_of_pos_right _ hh
  have hhle : s.cfg.height t.toNat ≤ s.cfg.width t.toNat * s.cfg.height t.toNat := Nat.le_mul_of_pos_left _ hw
  have hfits {n : Nat} (h : n ≤ s.cfg.bufLen t.toNat) : (BitVec.ofNat 32 n).toNat = n := by
    rw [BitVec.toNat_ofNat]; omega
  have hready {α : Type} (o : α) (body : α → State → Result) := withOperands_ready hs o body
  unfold Config.bufLen at hfits
  exact ⟨_, _, _, hfits (by omega), hfits (by omega), hfits le_rfl, hready _ _, hready _ _, hready _ _, hready _ _,
    hready _ _, hready _ _⟩

/-! ### Commands with one answer -/

/-- Settles O22: past the checks, each flush is one event and OK. -/
theorem flushAppendsOneEvent : Obligations.FlushAppendsOneEvent := fun _ _ _ hs =>
  ⟨exec_dtFlush_ready hs, exec_rFlush_ready hs _⟩

/-- Settles O23: past the checks, `DT.DISPOSE` is OK. -/
theorem disposeChangesNothing : Obligations.DisposeChangesNothing :=
  ⟨fun _ _ hs => exec_dtDispose_ready hs, rfl⟩

/-- Settles O34: past the checks, both commands are the error `NotImplemented`. -/
theorem ellipseAndRectTextNotImplemented : Obligations.EllipseAndRectTextNotImplemented := fun _ _ _ hs =>
  ⟨onSurface_ready hs _, onSurface_ready hs _⟩

theorem s32_eq_one_iff (w : Word) : s32 w = 1 ↔ w = 1 :=
  ⟨fun h => BitVec.eq_of_toInt_eq h, fun h => h ▸ rfl⟩

/-- Settles O28: the parameter tests come first, then the empty sizes. -/
theorem emptyRectDrawsNothing : Obligations.EmptyRectDrawsNothing := by
  intro s t o hs hempty
  refine ⟨fun hbad => (exec_rDrawRect_ready hs o).trans (if_pos ?_), fun hgood => (exec_rDrawRect_ready hs o).trans ?_⟩
  · exact hbad.imp_left (mt (s32_eq_one_iff _).mp)
  · obtain ⟨hthick, hopaque⟩ := hgood
    rw [if_neg (by simp [s32_eq_one_iff, hthick, hopaque]), if_pos (show s32 o.width ≤ 0 ∨ s32 o.height ≤ 0 from hempty)]
    rfl

/-! ### `SYS.RDREG` -/

theorem execSysRdReg_illegal (t : Byte) {n : Word} (s : State) (h : 4 < n.toNat) :
    execSysRdReg t (.fields n) s = raiseError .illegalCommand s := if_pos h

theorem execSysRdReg_legal (t : Byte) {n : Word} (s : State) (h : n.toNat ≤ 4) :
    execSysRdReg t (.fields n) s = returnOk (s.cr n.toNat) s := if_neg (Nat.not_lt.mpr h)

/-- The five control registers in order (10_state.md R23). -/
theorem State.cr_of_getElem? {s : State} {n : Nat} {v : Word}
    (h : [s.status, s.finfo0, s.finfo1, s.fcmd, BitVec.ofNat 32 s.cfg.surfaces.length][n]? = some v) :
    n ≤ 4 ∧ s.cr n = v := by
  obtain ⟨hlt, hv⟩ := List.getElem?_eq_some_iff.mp h
  refine ⟨Nat.le_of_lt_succ hlt, hv ▸ ?_⟩
  match n, hlt with
  | 0, _ | 1, _ | 2, _ | 3, _ | 4, _ => rfl

/-- Settles O38: the register number's own test, on every state. -/
theorem rdRegAnswersControlRegister : Obligations.RdRegAnswersControlRegister := by
  intro s t n ws
  refine ⟨fun v hv => ?_, fun hn => execSysRdReg_illegal t s hn, rfl⟩
  obtain ⟨hn, hcr⟩ := State.cr_of_getElem? hv
  exact (execSysRdReg_legal t s hn).trans (hcr ▸ rfl)

/-! ### Two commands that do the same -/

/-- Settles O52: each pair of commands shares its operation, and colour 0 is black. -/
theorem rendererIsItsDrawTarget : Obligations.RendererIsItsDrawTarget := fun _ _ => ⟨rfl, rfl, rfl, rfl⟩

end Sys2Proof.Machine

/-! PROOFS. What a command does not look at: the words and bits documented as ignored (30_encoding.md R90), and `OUT`
(10_state.md R27), since a command does the same on a state with other events (`OutBlind`). -/

namespace Sys2Proof.Machine

/-! ### Ignored operands -/

/-- Operands that the command's own rule does not tell apart are not told apart by the checks of decoding. -/
theorem withOperands_congr {α : Type} {o o' : α} {s : State} {body : α → State → Result} (t : Byte)
    (h : body o s = body o' s) : withOperands t (.fields o) s body = withOperands t (.fields o') s body := by
  simp only [withOperands, onSurface, h]

/-- While a text's parts are not both present `R.DRAWTEXT` looks at its flags only. -/
theorem execRDrawText_absent {t : Byte} {s : State} {o o' : TextOps} (h : o'.tflags = o.tflags)
    (habsent : textPresent o.tflags = false ∨ fontPresent o.tflags = false) :
    execRDrawText t (.fields o) s = execRDrawText t (.fields o') s :=
  by simp only [execRDrawText, withOperands, h, if_pos habsent]

/-- Settles O51: a colour is read through `color32`, which bits 31:24 do not change, and the other operands are not read. -/
theorem ignoredOperandsChangeNothing : Obligations.IgnoredOperandsChangeNothing := by
  intro s t t' x y color color' n a b c d ws ws' cps l r o m hcolor
  have hc := color32_congr hcolor
  have hset (header : Word) : setPixelOp header t ⟨x, y, color⟩ s = setPixelOp header t ⟨x, y, color'⟩ s := by
    simp only [setPixelOp, hc]
  refine ⟨withOperands_congr t (hset _), withOperands_congr t (hset _), ?_, ?_, ?_, ?_, rfl, rfl, rfl, rfl, fun hfont => ?_,
    fun htext => ?_⟩
  · simp only [exec, execDtClear, withOperands, hc]
  · simp only [exec, execRDrawLine, withOperands, hc]
  · simp only [exec, execRDrawRect, withOperands, hc]
  · simp only [exec, execRDrawText, withOperands, hc]
  · exact execRDrawText_absent (o := { o with family := a, size := b }) rfl (.inr hfont)
  · exact execRDrawText_absent (o := { o with text := cps }) rfl (.inl htext)

/-! ### Drawing does not look at `OUT` -/

/-- The state with other events. -/
def State.withOut (s : State) (events : List Event) : State := { s with out := events }

theorem State.withOut_cr (s : State) (events : List Event) (n : Nat) : (s.withOut events).cr n = s.cr n := by
  unfold State.cr
  split <;> rfl

/-- What a procedure left, with other events. -/
def Drawn.withOut (events : List Event) : Drawn → Drawn
  | .done s => .done (s.withOut events)
  | .raised f s => .raised f (s.withOut events)

/-- A procedure that does the same whatever the events are, and leaves them. -/
def DrawsBlind (k : State → Drawn) : Prop := ∀ s events, k (s.withOut events) = (k s).withOut events

theorem drawsBlind_done : DrawsBlind .done := fun _ _ => rfl

theorem drawsBlind_raised (f : Raise) : DrawsBlind (.raised f) := fun _ _ => rfl

theorem DrawsBlind.andThen {d k : State → Drawn} (hd : DrawsBlind d) (hk : DrawsBlind k) :
    DrawsBlind fun s => (d s).andThen k := by
  intro s events
  simp only [hd s events]
  cases d s with
  | done s' => exact hk s' events
  | raised f s' => rfl

theorem drawsBlind_pixWrite (t : Nat) (x y : Int) (v : Pixel) : DrawsBlind (pixWrite t x y v) := by
  intro s events
  rcases pixWrite_cases t x y v s with ⟨hr, e⟩ | ⟨hr, e⟩ <;> rw [e]
  · exact pixWrite_of_inRange v (s := s.withOut events) hr
  · exact pixWrite_of_not_inRange v (s := s.withOut events) hr

theorem drawsBlind_loop {body : Nat → State → Drawn} (h : ∀ i, DrawsBlind (body i)) (n : Nat) :
    DrawsBlind (loop n body) := by
  unfold loop
  generalize 0 = i
  induction n generalizing i with
  | zero => exact drawsBlind_done
  | succ n ih => exact (h i).andThen (ih (i + 1))

theorem drawsBlind_walkLoop {plot : Int → Int → State → Drawn} (h : ∀ a b, DrawsBlind (plot a b)) (sM sm M2 m2 : Int)
    (n : Nat) (k : Walk) : DrawsBlind (walkLoop plot sM sm M2 m2 n k) := by
  induction n generalizing k with
  | zero => exact drawsBlind_done
  | succ n ih => exact (h _ _).andThen (ih _)

theorem drawsBlind_line (t : Nat) (v : Pixel) (x0 y0 x1 y1 : Int) : DrawsBlind (line t v x0 y0 x1 y1) := by
  refine (drawsBlind_pixWrite t x0 y0 v).andThen fun s events => ?_
  simp only [lineWalk]
  split
  · exact drawsBlind_walkLoop (fun a b => drawsBlind_pixWrite t a b v) _ _ _ _ _ _ s events
  · exact drawsBlind_walkLoop (fun a b => drawsBlind_pixWrite t b a v) _ _ _ _ _ _ s events

theorem drawsBlind_rectOutline (t : Nat) (v : Pixel) (x y w h : Int) : DrawsBlind (rectOutline t v x y w h) :=
  (drawsBlind_line t v _ _ _ _).andThen ((drawsBlind_line t v _ _ _ _).andThen
    ((drawsBlind_line t v _ _ _ _).andThen (drawsBlind_line t v _ _ _ _)))

theorem drawsBlind_drawGlyph (t : Nat) (v : Pixel) (g : List Byte) (cx cy scale : Int) :
    DrawsBlind (drawGlyph t v g cx cy scale) := by
  refine drawsBlind_loop (fun c => drawsBlind_loop (fun hs => drawsBlind_loop (fun r => drawsBlind_loop (fun vs => ?_) _) _)
    _) _
  split
  · exact drawsBlind_pixWrite t _ _ v
  · exact drawsBlind_done

theorem drawsBlind_textLoop (t : Nat) (v : Pixel) (x scale : Int) (ps : List Word) (i : Nat) (cx cy : Int) :
    DrawsBlind (textLoop t v x scale ps i cx cy) := by
  induction ps generalizing i cx cy with
  | nil => exact drawsBlind_done
  | cons p ps ih =>
    intro s events
    unfold textLoop
    split
    · split
      · exact drawsBlind_raised _ s events
      · exact ((drawsBlind_drawGlyph t v _ _ _ _).andThen (ih _ _ _)) s events
    · split
      · exact ih _ _ _ s events
      · split
        · exact ih _ _ _ s events
        · exact ih _ _ _ s events

theorem drawsBlind_copyRect (src t w h : Nat) : DrawsBlind (copyRect src t w h) := by
  refine drawsBlind_loop (fun yy => drawsBlind_loop (fun xx s events => ?_) w) h
  unfold copyPixel
  have hread : pixRead src xx yy (s.withOut events) = pixRead src xx yy s := rfl
  rw [hread]
  split
  · exact drawsBlind_pixWrite t xx yy _ s events
  · rfl

/-! ### Commands do not look at `OUT` -/

/-- A command that does the same whatever the events are, and appends the same events to them. -/
def OutBlind (k : State → Result) : Prop :=
  ∀ s events, ∃ s' new, k s = .next s' ∧ s'.out = s.out ++ new ∧ k (s.withOut events) = .next (s'.withOut (events ++ new))

/-- A command that leaves the events as they are. -/
theorem outBlind_of_quiet {k : State → Result}
    (h : ∀ s events, ∃ s', k s = .next s' ∧ s'.out = s.out ∧ k (s.withOut events) = .next (s'.withOut events)) :
    OutBlind k := fun s events =>
  let ⟨s', hk, hout, hk'⟩ := h s events
  ⟨s', [], hk, by rw [hout, List.append_nil], by rw [hk', List.append_nil]⟩

theorem outBlind_raiseError (c : Code) : OutBlind (raiseError c) :=
  outBlind_of_quiet fun s _ => ⟨s.respond c 0, rfl, rfl, rfl⟩

/-- A value is blind when it does not look at the events. -/
theorem outBlind_returnOk {v : State → Word} (h : ∀ s events, v (s.withOut events) = v s) :
    OutBlind fun s => returnOk (v s) s :=
  outBlind_of_quiet fun s events =>
    ⟨s.respond .ok (v s), rfl, rfl, congrArg (returnOk · (s.withOut events)) (h s events)⟩

theorem outBlind_emit (e : Event) : OutBlind fun s => returnOk 0 (s.emit e) :=
  fun s _ => ⟨(s.emit e).respond .ok 0, [e], rfl, rfl, rfl⟩

theorem outBlind_clearOp (t : Byte) : OutBlind (clearOp t) :=
  outBlind_of_quiet fun s _ => ⟨(s.bulkClear t.toNat).respond .ok 0, rfl, rfl, rfl⟩

theorem DrawsBlind.out_eq {d : State → Drawn} (hd : DrawsBlind d) (s : State) : (d s).state.out = s.out := by
  have hself : d s = (d s).withOut s.out := hd s s.out
  rw [hself]
  cases d s <;> rfl

theorem outBlind_finish (header : Word) {d : State → Drawn} (hd : DrawsBlind d) : OutBlind fun s => finish header (d s) := by
  refine outBlind_of_quiet fun s events => ?_
  have hout := hd.out_eq s
  simp only [hd s events]
  cases hds : d s with
  | done s' => exact ⟨s'.respond .ok 0, rfl, by rwa [hds] at hout, rfl⟩
  | raised f s' => exact ⟨takeFault header f s', rfl, by rwa [hds] at hout, rfl⟩

theorem outBlind_getPixelOp (header : Word) (t : Byte) (alpha : State → Byte) (o : PointOps)
    (h : ∀ s events, alpha (s.withOut events) = alpha s) : OutBlind fun s => getPixelOp header t (alpha s) o s := by
  refine outBlind_of_quiet fun s events => ?_
  have hread : pixRead t.toNat (s32 o.x) (s32 o.y) (s.withOut events) = pixRead t.toNat (s32 o.x) (s32 o.y) s := rfl
  simp only [getPixelOp, h, hread]
  cases pixRead t.toNat (s32 o.x) (s32 o.y) s with
  | ok v => exact ⟨s.respond .ok _, rfl, rfl, rfl⟩
  | error f => exact ⟨takeFault header f s, rfl, rfl, rfl⟩

/-- A test that does not look at the events. -/
theorem OutBlind.ite {c : State → Prop} [∀ s, Decidable (c s)] {k k' : State → Result} (hk : OutBlind k) (hk' : OutBlind k')
    (hc : ∀ s events, c (s.withOut events) ↔ c s) : OutBlind fun s => if c s then k s else k' s := by
  intro s events
  simp only [hc]
  split
  · exact hk s events
  · exact hk' s events

theorem outBlind_onSurface (t : Byte) {body : State → State → Result} (h : OutBlind fun s => body s s) :
    OutBlind fun s => onSurface t s (body s) :=
  (outBlind_raiseError _).ite (h.ite (outBlind_raiseError _) fun _ _ => .rfl) fun _ _ => .rfl

theorem outBlind_withOperands {α : Type} (t : Byte) (ops : Packed α) {body : State → α → State → Result}
    (h : ∀ o, OutBlind fun s => body s o s) : OutBlind fun s => withOperands t ops s (body s) := by
  cases ops with
  | fields o => exact outBlind_onSurface t (h o)
  | otherLen ws => exact (outBlind_raiseError _).ite (outBlind_raiseError _) fun _ _ => .rfl

theorem outBlind_setPixelOp (header : Word) (t : Byte) (o : PixelOps) : OutBlind (setPixelOp header t o) :=
  outBlind_finish header (drawsBlind_pixWrite _ _ _ _)

theorem outBlind_execSysRdReg (t : Byte) (ops : Packed Word) : OutBlind (execSysRdReg t ops) := by
  cases ops with
  | otherLen ws => exact outBlind_raiseError _
  | fields n =>
    exact (outBlind_raiseError _).ite (outBlind_returnOk fun s events => s.withOut_cr events _) fun _ _ => .rfl

theorem outBlind_exec (i : Instr) : OutBlind (exec i) := by
  cases i with
  | dtGetPixel t o => exact outBlind_withOperands t o fun o => outBlind_getPixelOp _ t (fun _ => 0) o fun _ _ => rfl
  | rGetPixel t o => exact outBlind_withOperands t o fun o => outBlind_getPixelOp _ t (·.cfg.alphaOut) o fun _ _ => rfl
  | dtSetPixel t o => exact outBlind_withOperands t o fun o => outBlind_setPixelOp _ t o
  | rSetPixel t o => exact outBlind_withOperands t o fun o => outBlind_setPixelOp _ t o
  | dtClear t o => exact outBlind_withOperands t o fun o => (outBlind_clearOp t).ite (outBlind_raiseError _) fun _ _ => .rfl
  | rClear t o => exact outBlind_withOperands t o fun _ => outBlind_clearOp t
  | dtGetData t o => exact outBlind_withOperands t o fun _ => outBlind_returnOk fun _ _ => rfl
  | dtWidth t o => exact outBlind_withOperands t o fun _ => outBlind_returnOk fun _ _ => rfl
  | dtHeight t o => exact outBlind_withOperands t o fun _ => outBlind_returnOk fun _ _ => rfl
  | rGetBitmap t o => exact outBlind_withOperands t o fun _ => outBlind_returnOk fun _ _ => rfl
  | rWidth t o => exact outBlind_withOperands t o fun _ => outBlind_returnOk fun _ _ => rfl
  | rHeight t o => exact outBlind_withOperands t o fun _ => outBlind_returnOk fun _ _ => rfl
  | dtDispose t o => exact outBlind_withOperands t o fun _ => outBlind_returnOk fun _ _ => rfl
  | dtFlush t o => exact outBlind_withOperands t o fun _ => outBlind_emit _
  | rFlush t o => exact outBlind_withOperands t o fun _ => outBlind_emit _
  | rDrawEllipse t ws => exact outBlind_onSurface t (outBlind_raiseError _)
  | rDrawTextInRect t ws => exact outBlind_onSurface t (outBlind_raiseError _)
  | rDrawLine t o =>
    exact outBlind_withOperands t o fun o =>
      (outBlind_raiseError _).ite (outBlind_finish _ (drawsBlind_line _ _ _ _ _ _)) fun _ _ => .rfl
  | rDrawRect t o =>
    exact outBlind_withOperands t o fun o =>
      (outBlind_raiseError _).ite
        ((outBlind_returnOk fun _ _ => rfl).ite (outBlind_finish _ (drawsBlind_rectOutline _ _ _ _ _ _)) fun _ _ => .rfl)
        fun _ _ => .rfl
  | rDrawText t o =>
    exact outBlind_withOperands t o fun o =>
      (outBlind_raiseError _).ite
        ((outBlind_raiseError _).ite
          ((outBlind_raiseError _).ite (outBlind_finish _ (drawsBlind_textLoop _ _ _ _ _ _ _ _)) fun _ _ => .rfl)
          fun _ _ => .rfl)
        fun _ _ => .rfl
  | rStretchImage t o =>
    exact outBlind_withOperands t o fun o =>
      (outBlind_raiseError _).ite
        (OutBlind.ite (outBlind_finish _ (drawsBlind_copyRect _ _ _ _)) (outBlind_raiseError _) fun _ _ => .rfl)
        fun _ _ => .rfl
  | sysRdReg t o => exact outBlind_execSysRdReg t o

/-- Settles O50: every command is blind to the events before it (`outBlind_exec`). -/
theorem outIsNeverRead : Obligations.OutIsNeverRead := by
  intro i s s' events h
  obtain ⟨t, new, hk, hout, hblind⟩ := outBlind_exec i s events
  cases hk.symm.trans h
  exact ⟨new, hout, hblind⟩

end Sys2Proof.Machine

/-! PROOFS. 42_line.md and 43_rectangle_ellipse.md. The Bresenham loop at its k-th pass stands at a closed form (`walkAt`), so a
line is its closed-form pixels plotted in order (`line_eq_plotAll`), and a rectangle is four such lists. What is painted, and
where a fault stops it, is then read off `plotAll`. -/

namespace Sys2Proof.Machine

/-! ### The minor steps of a line -/

@[simp] theorem minorSteps_at_zero (M m : Nat) : minorSteps M m 0 = 0 := by
  unfold minorSteps
  obtain rfl | hM := Nat.eq_zero_or_pos M
  · simp
  · exact Nat.div_eq_of_lt (by omega)

@[simp] theorem minorSteps_zero_minor (M k : Nat) : minorSteps M 0 k = 0 := by
  simpa [minorSteps] using minorSteps_at_zero M 0

/-- The minor steps are the number `j` with `2·M·j ≤ 2·k·m + M < 2·M·(j + 1)`. -/
theorem minorSteps_eq_iff {M m k j : Nat} (hM : 0 < M) :
    minorSteps M m k = j ↔ 2 * M * j ≤ 2 * k * m + M ∧ 2 * k * m + M < 2 * M * (j + 1) := by
  rw [minorSteps, Nat.div_eq_iff (by omega), Nat.mul_comm j, Nat.mul_succ]
  omega

theorem minorSteps_at_major {M m : Nat} (hM : 0 < M) : minorSteps M m M = m :=
  (minorSteps_eq_iff hM).mpr ⟨by omega, by rw [Nat.mul_add]; omega⟩

theorem minorSteps_le {M m k : Nat} (hk : k ≤ M) : minorSteps M m k ≤ m := by
  obtain rfl | hM := Nat.eq_zero_or_pos M
  · rw [Nat.le_zero.mp hk, minorSteps_at_zero]; exact Nat.zero_le m
  · calc minorSteps M m k ≤ minorSteps M m M := by unfold minorSteps; gcongr
      _ = m := minorSteps_at_major hM

/-- Whether the next pass of the loop steps along the minor axis: its error term, in closed form, is not negative. -/
theorem minorSteps_succ {M m : Nat} (hM : 0 < M) (hm : m ≤ M) (k : Nat) :
    minorSteps M m (k + 1) =
      if M + 2 * M * minorSteps M m k ≤ 2 * (k + 1) * m then minorSteps M m k + 1 else minorSteps M m k := by
  obtain ⟨hlow, hhigh⟩ := (minorSteps_eq_iff hM).mp (rfl : minorSteps M m k = _)
  generalize minorSteps M m k = j at hlow hhigh ⊢
  rw [Nat.mul_succ] at hhigh
  have hk : 2 * (k + 1) * m = 2 * k * m + 2 * m := by ring
  split
  · rw [minorSteps_eq_iff hM, hk, Nat.mul_succ _ (j + 1), Nat.mul_succ _ j]; omega
  · rw [minorSteps_eq_iff hM, hk, Nat.mul_succ _ j]; omega

/-! ### The loop in closed form -/

/-- Where the loop that began at (a, b) stands after `k` passes, a the major coordinate. -/
def walkAt (a b sMajor sMinor : Int) (M m k : Nat) : Walk :=
  ⟨a + sMajor * k, b + sMinor * minorSteps M m k, 2 * (k + 1) * m - M - 2 * M * minorSteps M m k⟩

theorem walkAt_next {M m : Nat} (hM : 0 < M) (hm : m ≤ M) (a b sMajor sMinor : Int) (k : Nat) :
    (walkAt a b sMajor sMinor M m k).next sMajor sMinor (2 * M) (2 * m) = walkAt a b sMajor sMinor M m (k + 1) := by
  have htest : (0 : Int) ≤ 2 * (k + 1) * m - M - 2 * M * minorSteps M m k ↔
      M + 2 * M * minorSteps M m k ≤ 2 * (k + 1) * m := by
    zify
    constructor <;> intro h <;> linarith
  simp only [Walk.next, walkAt, htest, minorSteps_succ hM hm]
  split <;> simp only [Walk.mk.injEq] <;> push_cast
  · exact ⟨by ring, by ring, by ring⟩
  · exact ⟨by ring, trivial, by ring⟩

/-- The loop plots the closed form at the passes it makes. -/
theorem walkLoop_eq_plotAll {t : Nat} {v : Pixel} {plot : Int → Int → State → Drawn} {place : Int → Int → Int × Int}
    (hplot : ∀ a b, plot a b = pixWrite t (place a b).1 (place a b).2 v) {M m : Nat} (hm : m ≤ M) (a b sMajor sMinor : Int)
    (n k : Nat) (hn : n = 0 ∨ 0 < M) (s : State) :
    walkLoop plot sMajor sMinor (2 * M) (2 * m) n (walkAt a b sMajor sMinor M m k) s =
      plotAll t v ((List.range' (k + 1) n).map fun i : Nat => place (a + sMajor * i) (b + sMinor * minorSteps M m i)) s := by
  induction n generalizing k s with
  | zero => rfl
  | succ n ih =>
    have hM : 0 < M := by omega
    simp only [walkLoop, walkAt_next hM hm, List.range'_succ, List.map_cons, plotAll, hplot]
    congr 1
    funext s'
    exact ih (k + 1) (.inr hM) s'

theorem deltaSize_eq (d : Int) : deltaSize d = d.natAbs := by
  unfold deltaSize; split <;> omega

/-- The step direction is the sign of the delta, but for a delta of 0, where no step is made. -/
theorem stepDir_mul {d : Int} {j : Nat} (h : d = 0 → j = 0) : stepDir d * j = d.sign * j := by
  unfold stepDir
  rcases lt_trichotomy d 0 with hd | rfl | hd
  · rw [if_pos hd, Int.sign_eq_neg_one_of_neg hd]
  · simp [h rfl]
  · rw [if_neg (by omega), Int.sign_eq_one_of_pos hd]

/-- The loop on a major delta `d` and a minor delta `e`: the signs are the step directions. -/
theorem walkLoop_deltas {t : Nat} {v : Pixel} {plot : Int → Int → State → Drawn} {place : Int → Int → Int × Int}
    (hplot : ∀ a b, plot a b = pixWrite t (place a b).1 (place a b).2 v) (a b : Int) {d e : Int} (h : e.natAbs ≤ d.natAbs)
    (s : State) :
    walkLoop plot (stepDir d) (stepDir e) (2 * deltaSize d) (2 * deltaSize e) (deltaSize d).toNat
        ⟨a, b, 2 * deltaSize e - deltaSize d⟩ s =
      plotAll t v ((List.range' 1 d.natAbs).map fun i : Nat =>
        place (a + d.sign * i) (b + e.sign * minorSteps d.natAbs e.natAbs i)) s := by
  have hstart : (⟨a, b, 2 * (e.natAbs : Int) - d.natAbs⟩ : Walk) =
      walkAt a b (stepDir d) (stepDir e) d.natAbs e.natAbs 0 := by simp [walkAt]
  rw [deltaSize_eq, deltaSize_eq, Int.toNat_natCast, hstart, walkLoop_eq_plotAll hplot h _ _ _ _ _ _ (by omega)]
  congr 1
  refine List.map_congr_left fun i hi => ?_
  obtain ⟨h1, h2⟩ := List.mem_range'_1.mp hi
  rw [stepDir_mul (j := i) (by omega), stepDir_mul fun h0 => by simp [h0]]

theorem linePixel_zero (x0 y0 x1 y1 : Int) : linePixel x0 y0 x1 y1 0 = (x0, y0) := by
  simp [linePixel]

theorem linePixels_eq_cons (x0 y0 x1 y1 : Int) :
    linePixels x0 y0 x1 y1 =
      (x0, y0) :: (List.range' 1 (lineMajor x0 y0 x1 y1)).map (linePixel x0 y0 x1 y1) := by
  rw [linePixels, List.range_eq_range', List.range'_succ, List.map_cons, linePixel_zero]

/-- A line whose major axis is x. -/
theorem linePixel_of_xMajor {x0 y0 x1 y1 : Int} (h : (x1 - x0).natAbs > (y1 - y0).natAbs) (k : Nat) :
    linePixel x0 y0 x1 y1 k = (x0 + (x1 - x0).sign * k,
      y0 + (y1 - y0).sign * minorSteps (x1 - x0).natAbs (y1 - y0).natAbs k) := by
  rw [linePixel, lineMajor, lineMinor, max_eq_left h.le, min_eq_right h.le, if_pos h]

/-- A line whose major axis is y, as it is when the deltas are of one size (R171). -/
theorem linePixel_of_yMajor {x0 y0 x1 y1 : Int} (h : ¬ (x1 - x0).natAbs > (y1 - y0).natAbs) (k : Nat) :
    linePixel x0 y0 x1 y1 k = (x0 + (x1 - x0).sign * minorSteps (y1 - y0).natAbs (x1 - x0).natAbs k,
      y0 + (y1 - y0).sign * k) := by
  rw [linePixel, lineMajor, lineMinor, max_eq_right (not_lt.mp h), min_eq_left (not_lt.mp h), if_neg h]

theorem lineWalk_eq_plotAll (t : Nat) (v : Pixel) (x0 y0 x1 y1 : Int) (s : State) :
    lineWalk t v x0 y0 x1 y1 s =
      plotAll t v ((List.range' 1 (lineMajor x0 y0 x1 y1)).map (linePixel x0 y0 x1 y1)) s := by
  have haxis : 2 * deltaSize (x1 - x0) > 2 * deltaSize (y1 - y0) ↔ (x1 - x0).natAbs > (y1 - y0).natAbs := by
    rw [deltaSize_eq, deltaSize_eq]; omega
  simp only [lineWalk, haxis]
  split
  · next h =>
    rw [walkLoop_deltas (place := fun a b => (a, b)) (fun _ _ => rfl) x0 y0 h.le, lineMajor, max_eq_left h.le,
      funext (linePixel_of_xMajor h)]
  · next h =>
    rw [walkLoop_deltas (place := fun a b => (b, a)) (fun _ _ => rfl) y0 x0 (not_lt.mp h), lineMajor,
      max_eq_right (not_lt.mp h), funext (linePixel_of_yMajor h)]

/-- The line rasterizer plots the pixels of the closed form in order (R172). -/
theorem line_eq_plotAll (t : Nat) (v : Pixel) (x0 y0 x1 y1 : Int) (s : State) :
    line t v x0 y0 x1 y1 s = plotAll t v (linePixels x0 y0 x1 y1) s := by
  rw [line, linePixels_eq_cons, plotAll, funext (lineWalk_eq_plotAll t v x0 y0 x1 y1)]

/-! ### The ends of a line -/

theorem sign_mul_natAbs_add (a b : Int) : a + (b - a).sign * (b - a).natAbs = b := by
  rw [Int.sign_mul_natAbs]; omega

theorem linePixel_last (x0 y0 x1 y1 : Int) : linePixel x0 y0 x1 y1 (lineMajor x0 y0 x1 y1) = (x1, y1) := by
  by_cases h : (x1 - x0).natAbs > (y1 - y0).natAbs
  · rw [linePixel_of_xMajor h, lineMajor, max_eq_left h.le, minorSteps_at_major (by omega), sign_mul_natAbs_add,
      sign_mul_natAbs_add]
  · rw [linePixel_of_yMajor h, lineMajor, max_eq_right (not_lt.mp h), sign_mul_natAbs_add]
    obtain h0 | hM := Nat.eq_zero_or_pos (y1 - y0).natAbs
    · have hx : x1 = x0 := by omega
      simp [hx]
    · rw [minorSteps_at_major hM, sign_mul_natAbs_add]

theorem linePixels_head? (x0 y0 x1 y1 : Int) : (linePixels x0 y0 x1 y1).head? = some (x0, y0) := by
  rw [linePixels_eq_cons, List.head?_cons]

theorem linePixels_getLast? (x0 y0 x1 y1 : Int) : (linePixels x0 y0 x1 y1).getLast? = some (x1, y1) := by
  rw [linePixels, List.range_succ, List.map_append, List.map_singleton, List.getLast?_concat, linePixel_last]

theorem linePixels_length (x0 y0 x1 y1 : Int) : (linePixels x0 y0 x1 y1).length = lineMajor x0 y0 x1 y1 + 1 := by
  rw [linePixels, List.length_map, List.length_range]

/-- Settles O24: the loop in closed form (`line_eq_plotAll`), its ends, and one major unit a pixel. -/
theorem linePlotsClosedForm : Obligations.LinePlotsClosedForm := by
  intro t v x0 y0 x1 y1 s
  refine ⟨line_eq_plotAll .., linePixels_length .., linePixels_head? .., linePixels_getLast? .., fun k _ => ?_⟩
  split
  · next h => rw [linePixel_of_xMajor h, linePixel_of_xMajor h]; push_cast; ring
  · next h => rw [linePixel_of_yMajor h, linePixel_of_yMajor h]; push_cast; ring

/-! ### Which pixels a line has -/

theorem mem_linePixels {x0 y0 x1 y1 : Int} {p : Int × Int} :
    p ∈ linePixels x0 y0 x1 y1 ↔ ∃ k, k ≤ lineMajor x0 y0 x1 y1 ∧ p = linePixel x0 y0 x1 y1 k := by
  simp only [linePixels, List.mem_map, List.mem_range, Nat.lt_succ_iff, eq_comm]

/-- A coordinate that has gone `j` of its `|b - a|` units from a to b lies between them. -/
theorem between_of_steps {a b : Int} {j : Nat} (h : j ≤ (b - a).natAbs) :
    min a b ≤ a + (b - a).sign * j ∧ a + (b - a).sign * j ≤ max a b := by
  rcases lt_trichotomy (b - a) 0 with hd | hd | hd
  · rw [Int.sign_eq_neg_one_of_neg hd]; omega
  · rw [hd]; simp
  · rw [Int.sign_eq_one_of_pos hd]; omega

/-- Every pixel of a line lies in the box of its endpoints. -/
theorem linePixel_in_box {x0 y0 x1 y1 : Int} {k : Nat} (hk : k ≤ lineMajor x0 y0 x1 y1) :
    (min x0 x1 ≤ (linePixel x0 y0 x1 y1 k).1 ∧ (linePixel x0 y0 x1 y1 k).1 ≤ max x0 x1) ∧
      min y0 y1 ≤ (linePixel x0 y0 x1 y1 k).2 ∧ (linePixel x0 y0 x1 y1 k).2 ≤ max y0 y1 := by
  unfold lineMajor at hk
  by_cases h : (x1 - x0).natAbs > (y1 - y0).natAbs
  · rw [linePixel_of_xMajor h]
    exact ⟨between_of_steps (by omega), between_of_steps (minorSteps_le (by omega))⟩
  · rw [linePixel_of_yMajor h]
    exact ⟨between_of_steps (minorSteps_le (by omega)), between_of_steps (by omega)⟩

/-- A surface is a box: a point between two points in range is in range. -/
theorem inRange_of_in_box {c : Config} {t : Nat} {x0 y0 x1 y1 x y : Int} (h0 : inRange c t x0 y0 = true)
    (h1 : inRange c t x1 y1 = true) (hx : min x0 x1 ≤ x ∧ x ≤ max x0 x1) (hy : min y0 y1 ≤ y ∧ y ≤ max y0 y1) :
    inRange c t x y = true := by
  rw [inRange_iff] at *
  omega

theorem linePixels_inRange {c : Config} {t : Nat} {x0 y0 x1 y1 : Int} (h0 : inRange c t x0 y0 = true)
    (h1 : inRange c t x1 y1 = true) {x y : Int} (h : (x, y) ∈ linePixels x0 y0 x1 y1) : inRange c t x y = true := by
  obtain ⟨k, hk, e⟩ := mem_linePixels.mp h
  obtain ⟨hx, hy⟩ := e ▸ linePixel_in_box hk
  exact inRange_of_in_box h0 h1 hx hy

/-! ### Drawing commands as plotted lists -/

/-- The same set under another description. -/
theorem PaintsOnly.congr {t : Nat} {v : Pixel} {P Q : Int → Int → Prop} {s s' : State} (h : PaintsOnly t v P s s')
    (e : ∀ x y, P x y ↔ Q x y) : PaintsOnly t v Q s s' :=
  ⟨fun x y hq => h.1 x y ((e x y).mpr hq), fun u o hn => h.2 u o fun x y hp => hn x y ((e x y).mp hp)⟩

/-- A drawing command whose pixels are all in range completes and paints them. -/
theorem finish_plotAll_completes {t : Nat} (header : Word) (v : Pixel) {ps : List (Int × Int)} {s : State} (hb : s.BufsOk)
    (ht : t < s.cfg.nsurf) (hin : ∀ x y, (x, y) ∈ ps → inRange s.cfg t x y = true) :
    ∃ s', finish header (plotAll t v ps s) = .next s' ∧ s'.resp = s.resp ++ [⟨0, 0⟩] ∧ s.SameButBufs s' ∧
      PaintsOnly t v (fun x y => (x, y) ∈ ps) s s' := by
  obtain ⟨s', hdone, hpainted⟩ := (covers_plotAll v ps s hb ht).completes hin
  rw [hdone]
  exact hpainted.completes header

/-- A drawing command faults at its first pixel out of range, with exactly the pixels before it painted. -/
theorem finish_plotAll_faults {t : Nat} (header : Word) (v : Pixel) {ps : List (Int × Int)} {s : State} (hb : s.BufsOk)
    (ht : t < s.cfg.nsurf) {k : Nat} {p : Int × Int} (h : FirstOutside s.cfg t ps k p) :
    ∃ s', finish header (plotAll t v ps s) = .next s' ∧
      s.FaultedWith s' 5 (BitVec.ofInt 32 p.1) (BitVec.ofInt 32 p.2) header ∧
      PaintsOnly t v (fun x y => (x, y) ∈ ps.take k) s s' := by
  obtain ⟨s', hraised, hpainted⟩ := plotAll_firstOutside v hb ht h
  rw [hraised]
  exact hpainted.faults header (.pixelRange p.1 p.2)

theorem exec_rDrawLine_thickness_one {s : State} {t : Byte} {o : LineOps} (hs : s.Ready t) (h : o.thickness = 1) :
    exec (.rDrawLine t (.fields o)) s = finish (Instr.header (.rDrawLine t (.fields o)))
      (plotAll t.toNat (enc565 (color32 o.color)) (linePixels o.x0.toInt o.y0.toInt o.x1.toInt o.y1.toInt) s) := by
  rw [exec_rDrawLine_ready hs, if_neg (not_not.mpr ((s32_eq_one_iff _).mpr h)), line_eq_plotAll]
  rfl

/-- Settles O25: the line's pixels lie in the box of its endpoints (`linePixels_inRange`), so none is out of range. -/
theorem drawLinePaintsLine : Obligations.DrawLinePaintsLine := by
  intro s t o hs hb hthick h0 h1
  rw [exec_rDrawLine_thickness_one hs hthick]
  exact finish_plotAll_completes _ _ hb hs.2 fun x y h => linePixels_inRange h0 h1 h

theorem take_linePixels {x0 y0 x1 y1 : Int} {k : Nat} (hk : k ≤ lineMajor x0 y0 x1 y1) :
    (linePixels x0 y0 x1 y1).take k = (List.range k).map (linePixel x0 y0 x1 y1) := by
  rw [linePixels, ← List.map_take, List.take_range, min_eq_left (by omega)]

/-- Settles O26: pixel k is the first out of range of the line's list. -/
theorem drawLineStopsAtFirstOutside : Obligations.DrawLineStopsAtFirstOutside := by
  intro s t o k hs hb hthick hk hbefore hout
  have hfirst : FirstOutside s.cfg t.toNat (linePixels o.x0.toInt o.y0.toInt o.x1.toInt o.y1.toInt) k (lineOpsPixel o k) := by
    refine ⟨?_, hout, ?_⟩
    · rw [linePixels, List.getElem?_map, List.getElem?_range (by omega)]; rfl
    · rw [take_linePixels hk]
      simpa [lineOpsPixel] using hbefore
  rw [exec_rDrawLine_thickness_one hs hthick]
  obtain ⟨s', hnext, hfault, hpaint⟩ := finish_plotAll_faults _ (enc565 (color32 o.color)) hb hs.2 hfirst
  refine ⟨s', hnext, hfault, hpaint.congr fun x y => ?_⟩
  rw [take_linePixels hk]
  simp [lineOpsPixel, eq_comm]

/-! ### Rectangles -/

theorem rectOutline_eq_plotAll (t : Nat) (v : Pixel) (x y w h : Int) (s : State) :
    rectOutline t v x y w h s = plotAll t v (rectPixels x y w h) s := by
  have happend (ps qs : List (Int × Int)) :
      plotAll t v (ps ++ qs) = fun s => (plotAll t v ps s).andThen (plotAll t v qs) := funext (plotAll_append t v ps qs)
  simp only [rectOutline, line_eq_plotAll, rectPixels, List.append_assoc, happend]

theorem linePixel_horizontal {x0 x1 y : Int} {k : Nat} (hle : x0 ≤ x1) (hk : (k : Int) ≤ x1 - x0) :
    linePixel x0 y x1 y k = (x0 + k, y) := by
  by_cases h : (x1 - x0).natAbs > (y - y).natAbs
  · rw [linePixel_of_xMajor h, Int.sign_eq_one_of_pos (by omega), Int.sub_self]
    simp
  · have hx : x1 = x0 := by omega
    have hk0 : k = 0 := by omega
    rw [hx, hk0, linePixel_zero]
    simp

theorem linePixel_vertical {x y0 y1 : Int} {k : Nat} (hle : y0 ≤ y1) (hk : (k : Int) ≤ y1 - y0) :
    linePixel x y0 x y1 k = (x, y0 + k) := by
  rw [linePixel_of_yMajor (by simp), Int.sub_self]
  obtain h0 | hpos := hle.eq_or_lt
  · have hk0 : k = 0 := by omega
    simp [hk0]
  · have hsign : (y1 - y0).sign = 1 := Int.sign_eq_one_of_pos (by omega)
    simp [hsign]

theorem mem_linePixels_horizontal {x0 x1 y : Int} (hle : x0 ≤ x1) (px py : Int) :
    (px, py) ∈ linePixels x0 y x1 y ↔ x0 ≤ px ∧ px ≤ x1 ∧ py = y := by
  have hM : lineMajor x0 y x1 y = (x1 - x0).natAbs := by simp [lineMajor]
  rw [mem_linePixels, hM]
  constructor
  · rintro ⟨k, hk, e⟩
    rw [linePixel_horizontal hle (by omega), Prod.mk.injEq] at e
    omega
  · rintro ⟨h0, h1, rfl⟩
    refine ⟨(px - x0).toNat, by omega, ?_⟩
    rw [linePixel_horizontal hle (by omega), Prod.mk.injEq]
    omega

theorem mem_linePixels_vertical {x y0 y1 : Int} (hle : y0 ≤ y1) (px py : Int) :
    (px, py) ∈ linePixels x y0 x y1 ↔ y0 ≤ py ∧ py ≤ y1 ∧ px = x := by
  have hM : lineMajor x y0 x y1 = (y1 - y0).natAbs := by simp [lineMajor]
  rw [mem_linePixels, hM]
  constructor
  · rintro ⟨k, hk, e⟩
    rw [linePixel_vertical hle (by omega), Prod.mk.injEq] at e
    omega
  · rintro ⟨h0, h1, rfl⟩
    refine ⟨(py - y0).toNat, by omega, ?_⟩
    rw [linePixel_vertical hle (by omega), Prod.mk.injEq]
    omega

/-- The four lines of a rectangle are its border (R191). -/
theorem mem_rectPixels {x y w h : Int} (hw : 1 ≤ w) (hh : 1 ≤ h) (px py : Int) :
    (px, py) ∈ rectPixels x y w h ↔ RectBorder x y w h px py := by
  simp only [rectPixels, List.mem_append, mem_linePixels_horizontal (show x ≤ x + w - 1 by omega),
    mem_linePixels_vertical (show y ≤ y + h - 1 by omega), RectBorder]
  omega

theorem exec_rDrawRect_plain {s : State} {t : Byte} {o : RectOps} (hs : s.Ready t) (hthick : o.thickness = 1)
    (hopaque : o.opacity = s.cfg.fullOpacity) (hw : 1 ≤ o.width.toInt) (hh : 1 ≤ o.height.toInt) :
    exec (.rDrawRect t (.fields o)) s = finish (Instr.header (.rDrawRect t (.fields o)))
      (plotAll t.toNat (enc565 (color32 o.color))
        (rectPixels o.x.toInt o.y.toInt o.width.toInt o.height.toInt) s) := by
  have hparams : ¬ (s32 o.thickness ≠ 1 ∨ o.opacity ≠ s.cfg.fullOpacity) := by simp [s32_eq_one_iff, hthick, hopaque]
  have hsizes : ¬ (s32 o.width ≤ 0 ∨ s32 o.height ≤ 0) := by unfold s32; omega
  rw [exec_rDrawRect_ready hs, if_neg hparams, if_neg hsizes, rectOutline_eq_plotAll]
  rfl

/-- Settles O27: the pixels plotted are the border (`mem_rectPixels`), which lies in the block, and the block on the surface. -/
theorem drawRectPaintsBorder : Obligations.DrawRectPaintsBorder := by
  intro s t o hs hb hthick hopaque hw hh hx hy hxw hyh
  rw [exec_rDrawRect_plain hs hthick hopaque hw hh]
  obtain ⟨s', hnext, hresp, hsame, hpaint⟩ :=
    finish_plotAll_completes (Instr.header (.rDrawRect t (.fields o))) (enc565 (color32 o.color)) hb hs.2
      (ps := rectPixels o.x.toInt o.y.toInt o.width.toInt o.height.toInt) fun x y h => by
        obtain ⟨h1, h2, h3, h4, -⟩ := (mem_rectPixels hw hh x y).mp h
        rw [inRange_iff]
        omega
  exact ⟨s', hnext, hresp, hsame, hpaint.congr (mem_rectPixels hw hh)⟩

/-- A block that is not on the surface has a border pixel off it: one of two opposite corners. -/
theorem rectPixels_outside {c : Config} {t : Nat} {x y w h : Int} (hw : 1 ≤ w) (hh : 1 ≤ h)
    (hoff : ¬ (0 ≤ x ∧ 0 ≤ y ∧ x + w ≤ c.width t ∧ y + h ≤ c.height t)) :
    ∃ q ∈ rectPixels x y w h, inRange c t q.1 q.2 = false := by
  have hfirst : (x, y) ∈ rectPixels x y w h := (mem_rectPixels hw hh _ _).mpr (by unfold RectBorder; omega)
  have hlast : (x + w - 1, y + h - 1) ∈ rectPixels x y w h :=
    (mem_rectPixels hw hh _ _).mpr (by unfold RectBorder; omega)
  by_contra hall
  simp only [not_exists, not_and, Bool.not_eq_false] at hall
  have h1 := (inRange_iff ..).mp (hall _ hfirst)
  have h2 := (inRange_iff ..).mp (hall _ hlast)
  omega

/-- Settles O29: the rectangle has a pixel off the surface, so a first one in drawing order. -/
theorem drawRectOffSurfaceFaults : Obligations.DrawRectOffSurfaceFaults := by
  intro s t o hs hb hthick hopaque hw hh hoff
  obtain ⟨k, p, hfirst⟩ := exists_firstOutside (rectPixels_outside hw hh hoff)
  rw [exec_rDrawRect_plain hs hthick hopaque hw hh]
  obtain ⟨s', hnext, hfault, hpaint⟩ := finish_plotAll_faults _ (enc565 (color32 o.color)) hb hs.2 hfirst
  exact ⟨s', k, p, hnext, hfirst, (mem_rectPixels hw hh _ _).mp (List.mem_of_getElem? hfirst.1), hfault, hpaint⟩

end Sys2Proof.Machine

/-! PROOFS. 44_text.md. The text loop keeps its cursor where R209's closed form puts it (`textCursor`), so drawing characters of
codepoints up to 126 is plotting their lit pixels in order and going on with the rest of the text (`textLoop_append`). -/

namespace Sys2Proof.Machine

/-! ### The cursor -/

/-- Where the next character goes after the characters `pre` of a text drawn at (x, y) (R209). -/
def textCursor (x y scale : Int) (pre : List Word) : Int × Int :=
  (x + 6 * scale * textColumn pre pre.length, y + 9 * scale * textRow pre pre.length)

@[simp] theorem textCursor_nil (x y scale : Int) : textCursor x y scale [] = (x, y) := by
  simp [textCursor, textColumn, textRow]

theorem textColumn_append_left (pre rest : List Word) : textColumn (pre ++ rest) pre.length = textColumn pre pre.length := by
  simp [textColumn]

theorem textRow_append_left (pre rest : List Word) : textRow (pre ++ rest) pre.length = textRow pre pre.length := by
  simp [textRow]

theorem textColumn_concat (pre : List Word) (p : Word) :
    textColumn (pre ++ [p]) (pre ++ [p]).length =
      if u32 p = 10 ∨ u32 p = 13 then 0
      else textColumn pre pre.length + if 32 ≤ u32 p then 1 else 0 := by
  simp only [textColumn, List.take_length, List.reverse_append, List.reverse_singleton, List.singleton_append,
    List.takeWhile_cons]
  split
  · next h =>
    rw [decide_eq_true_eq] at h
    have hstop : ¬ (u32 p = 10 ∨ u32 p = 13) := by omega
    simp only [if_neg hstop, List.countP_cons, decide_eq_true_eq]
  · next h =>
    rw [decide_eq_true_eq] at h
    have hbreak : u32 p = 10 ∨ u32 p = 13 := by omega
    rw [if_pos hbreak, List.countP_nil]

theorem textRow_concat (pre : List Word) (p : Word) :
    textRow (pre ++ [p]) (pre ++ [p]).length = textRow pre pre.length + if u32 p = 10 then 1 else 0 := by
  simp only [textRow, List.take_length, List.countP_append, List.countP_singleton, decide_eq_true_eq]

/-- How a character moves the cursor (R205). -/
theorem textCursor_concat (x y scale : Int) (pre : List Word) (p : Word) :
    textCursor x y scale (pre ++ [p]) =
      if 32 ≤ u32 p then ((textCursor x y scale pre).1 + 6 * scale, (textCursor x y scale pre).2)
      else if u32 p = 10 then (x, (textCursor x y scale pre).2 + 9 * scale)
      else if u32 p = 13 then (x, (textCursor x y scale pre).2)
      else textCursor x y scale pre := by
  simp only [textCursor, textColumn_concat, textRow_concat]
  by_cases h32 : 32 ≤ u32 p
  · rw [if_neg (by omega), if_pos h32, if_neg (by omega), if_pos h32]
    push_cast
    exact Prod.ext (by ring) (by ring)
  · rw [if_neg h32, if_neg h32]
    by_cases h10 : u32 p = 10
    · rw [if_pos (.inl h10), if_pos h10, if_pos h10]
      push_cast
      exact Prod.ext (by ring) (by ring)
    · rw [if_neg h10, if_neg h10]
      by_cases h13 : u32 p = 13
      · rw [if_pos (.inr h13), if_pos h13]
        simp
      · rw [if_neg (by omega), if_neg h13]
        rfl

/-! ### Plotting leaves the configuration -/

theorem plotAll_rel {t : Nat} {R : State → State → Prop} (hR : PixelClosed t R) (v : Pixel) (ps : List (Int × Int))
    (s : State) : R s (plotAll t v ps s).state := by
  induction ps generalizing s with
  | nil => exact hR.refl s
  | cons p ps ih => exact Drawn.andThen_rel hR (pixWrite_rel hR p.1 p.2 v s) ih

theorem Drawn.andThen_congr {d : Drawn} {k k' : State → Drawn} (h : k d.state = k' d.state) : d.andThen k = d.andThen k' := by
  cases d with
  | done s => exact h
  | raised f s => rfl

theorem Drawn.andThen_assoc (d : Drawn) (k k' : State → Drawn) :
    (d.andThen k).andThen k' = d.andThen fun s => (k s).andThen k' := by
  cases d <;> rfl

theorem Drawn.andThen_done (d : Drawn) : d.andThen .done = d := by
  cases d <;> rfl

/-! ### The loop over the characters -/

theorem charPixels_at_length (c : Config) (pre ps : List Word) (p : Word) (x y scale : Int) :
    charPixels c (pre ++ p :: ps) x y scale pre.length =
      if 32 ≤ u32 p then
        glyphPixels (glyphEntry c (u32 p - 32)) (textCursor x y scale pre).1 (textCursor x y scale pre).2 scale
      else [] := by
  simp [charPixels, textColumn_append_left, textRow_append_left, textCursor]

/-- One character of codepoint up to 126: its lit pixels, and on with the cursor moved. -/
theorem textLoop_cons (t : Nat) (v : Pixel) (x y scale : Int) (pre qs : List Word) {p : Word} (hp : u32 p ≤ 126) (s : State) :
    textLoop t v x scale (p :: qs) pre.length (textCursor x y scale pre).1 (textCursor x y scale pre).2 s =
      (plotAll t v (charPixels s.cfg (pre ++ p :: qs) x y scale pre.length) s).andThen
        (textLoop t v x scale qs (pre ++ [p]).length (textCursor x y scale (pre ++ [p])).1
          (textCursor x y scale (pre ++ [p])).2) := by
  rw [textLoop, charPixels_at_length, textCursor_concat, List.length_append, List.length_singleton]
  by_cases h32 : 32 ≤ u32 p
  · simp only [if_pos h32, if_neg (Nat.not_lt.mpr hp), drawGlyph_plotAll]
  · simp only [if_neg h32, plotAll, Drawn.andThen]
    split
    · rfl
    · split <;> rfl

theorem textLoop_append {c : Config} (t : Nat) (v : Pixel) (x y scale : Int) (pre ps rest : List Word)
    (hps : ∀ q ∈ ps, u32 q ≤ 126) (s : State) (hc : s.cfg = c) :
    textLoop t v x scale (ps ++ rest) pre.length (textCursor x y scale pre).1 (textCursor x y scale pre).2 s =
      (plotAll t v ((List.range' pre.length ps.length).flatMap (charPixels c (pre ++ ps) x y scale)) s).andThen
        (textLoop t v x scale rest (pre ++ ps).length (textCursor x y scale (pre ++ ps)).1
          (textCursor x y scale (pre ++ ps)).2) := by
  induction ps generalizing pre s with
  | nil => simp [plotAll, Drawn.andThen]
  | cons p ps ih =>
    obtain ⟨hp, hps⟩ := List.forall_mem_cons.mp hps
    have hnext (s' : State) (hc' : s'.cfg = c) := ih (pre ++ [p]) hps s' hc'
    simp only [List.append_assoc, List.singleton_append] at hnext
    rw [List.cons_append, textLoop_cons t v x y scale pre (ps ++ rest) hp s, List.length_cons, List.range'_succ,
      List.flatMap_cons, plotAll_append, Drawn.andThen_assoc, hc, charPixels_at_length, charPixels_at_length]
    refine Drawn.andThen_congr ?_
    rw [hnext]
    · simp
    · rw [← hc]
      exact (plotAll_rel (onlyBuf_closed t) v _ s).cfg

/-- Characters of codepoints up to 126 plot their lit pixels in order, and the rest of the text follows. -/
theorem textLoop_text (t : Nat) (v : Pixel) (x y scale : Int) (before rest : List Word) (h : ∀ q ∈ before, u32 q ≤ 126)
    (s : State) :
    textLoop t v x scale (before ++ rest) 0 x y s =
      (plotAll t v (textPixels s.cfg before x y scale) s).andThen
        (textLoop t v x scale rest before.length (textCursor x y scale before).1 (textCursor x y scale before).2) := by
  simpa [textPixels, List.range_eq_range'] using textLoop_append t v x y scale [] before rest h s rfl

/-- A codepoint above 126 raises `GlyphRange` (R211). -/
theorem textLoop_raises_glyphRange (t : Nat) (v : Pixel) (x scale : Int) {p : Word} (h : 126 < u32 p) (ps : List Word) (i : Nat)
    (cx cy : Int) (s : State) : textLoop t v x scale (p :: ps) i cx cy s = .raised (.glyphRange (u32 p) i) s := by
  rw [textLoop, if_pos (by omega), if_pos h]

/-! ### `R.DRAWTEXT` -/

theorem exec_rDrawText_plain {s : State} {t : Byte} {o : TextOps} (hs : s.Ready t) (hflags : o.tflags = 3)
    (hfamily : o.family = 0) :
    exec (.rDrawText t (.fields o)) s = finish (Instr.header (.rDrawText t (.fields o)))
      (textLoop t.toNat (enc565 (color32 o.color)) o.x.toInt (o.size.toInt / 8) o.text 0 o.x.toInt o.y.toInt s) := by
  have hheader : Instr.header (.rDrawText t (.fields o)) = headerWord opcRDrawText t (6 + o.text.length) :=
    congrArg (headerWord opcRDrawText t) (TextOps.length_words o)
  have hreserved : ¬ tflagsReserved o.tflags ≠ 0 := by rw [hflags]; decide
  have hpresent : ¬ (textPresent o.tflags = false ∨ fontPresent o.tflags = false) := by rw [hflags]; decide
  have hbuiltin : ¬ u32 o.family ≠ 0 := not_not.mpr ((u32_eq_zero_iff _).mpr hfamily)
  simp only [exec, execRDrawText, withOperands_ready hs, if_neg hreserved, if_neg hpresent, if_neg hbuiltin, hheader]
  rfl

/-- A text of codepoints up to 126 plots its lit pixels in order. -/
theorem exec_rDrawText_plotAll {s : State} {t : Byte} {o : TextOps} (hs : s.Ready t) (hflags : o.tflags = 3)
    (hfamily : o.family = 0) (htext : ∀ p ∈ o.text, u32 p ≤ 126) :
    exec (.rDrawText t (.fields o)) s = finish (Instr.header (.rDrawText t (.fields o)))
      (plotAll t.toNat (enc565 (color32 o.color))
        (textPixels s.cfg o.text o.x.toInt o.y.toInt (o.size.toInt / 8)) s) := by
  have h := textLoop_text t.toNat (enc565 (color32 o.color)) o.x.toInt o.y.toInt (o.size.toInt / 8) o.text [] htext s
  rw [List.append_nil, show textLoop _ _ _ _ [] _ _ _ = Drawn.done from rfl, Drawn.andThen_done] at h
  rw [exec_rDrawText_plain hs hflags hfamily, h]

/-- Settles O30: the pixels plotted are the lit ones (`mem_textPixels`), all in range. -/
theorem drawTextPaintsLitPixels : Obligations.DrawTextPaintsLitPixels := by
  intro s t o hs hb hflags hfamily htext hin
  rw [exec_rDrawText_plotAll hs hflags hfamily htext]
  obtain ⟨s', hnext, hresp, hsame, hpaint⟩ :=
    finish_plotAll_completes (Instr.header (.rDrawText t (.fields o))) (enc565 (color32 o.color)) hb hs.2
      fun x y h => hin x y ((mem_textPixels ..).mp h)
  exact ⟨s', hnext, hresp, hsame, hpaint.congr fun _ _ => mem_textPixels ..⟩

/-- With scale ≤ 0 no pixel is lit (R206). -/
theorem textPixels_of_scale_nonpos (c : Config) (text : List Word) (x y : Int) {scale : Int} (h : scale ≤ 0) :
    textPixels c text x y scale = [] := by
  refine List.eq_nil_iff_forall_not_mem.mpr fun p hp => ?_
  obtain ⟨j, q, -, -, col, r, hs, vs, -, -, hhs, -⟩ := (mem_textPixels c text x y scale p.1 p.2).mp hp
  omega

/-- Settles O31: a size below 8 is a scale ≤ 0, so the list plotted is empty. -/
theorem smallFontDrawsNothing : Obligations.SmallFontDrawsNothing := by
  intro s t o hs hflags hfamily hsize htext
  rw [exec_rDrawText_plotAll hs hflags hfamily htext, textPixels_of_scale_nonpos _ _ _ _ (by omega)]
  rfl

/-- Settles O32: the characters before are plotted, all in range, and the next one raises. -/
theorem glyphRangeFaultNamesCharacter : Obligations.GlyphRangeFaultNamesCharacter := by
  intro s t o before after p hs hb hflags hfamily htext hp hbefore hin
  obtain ⟨s', hdone, hpainted⟩ := (covers_plotAll (enc565 (color32 o.color))
    (textPixels s.cfg before o.x.toInt o.y.toInt (o.size.toInt / 8)) s hb hs.2).completes
      fun x y h => hin x y ((mem_textPixels ..).mp h)
  rw [exec_rDrawText_plain hs hflags hfamily, htext, textLoop_text _ _ _ _ _ before _ hbefore, hdone, Drawn.andThen,
    textLoop_raises_glyphRange _ _ _ _ hp]
  obtain ⟨s'', hnext, hfault, hpaint⟩ := hpainted.faults (Instr.header (.rDrawText t (.fields o)))
    (.glyphRange (u32 p) before.length)
  have hinfo : (Raise.glyphRange (u32 p) before.length).info0 = p := BitVec.ofNat_toNat ..
  rw [hinfo] at hfault
  exact ⟨s'', hnext, hfault, hpaint.congr fun _ _ => mem_textPixels ..⟩

/-- Settles O33: the text of `before` has a lit pixel off the surface, so a first one in drawing order, and what follows is not
drawn. -/
theorem drawTextOffSurfaceFaults : Obligations.DrawTextOffSurfaceFaults := by
  intro s t o before after hs hb hflags hfamily htext hbefore ⟨px, py, hlit, hout⟩
  obtain ⟨k, p, hfirst⟩ := exists_firstOutside ⟨(px, py), (mem_textPixels ..).mpr hlit, hout⟩
  obtain ⟨s', hraised, hpainted⟩ := plotAll_firstOutside (enc565 (color32 o.color)) hb hs.2 hfirst
  rw [exec_rDrawText_plain hs hflags hfamily, htext, textLoop_text _ _ _ _ _ before _ hbefore, hraised]
  obtain ⟨s'', hnext, hfault, hpaint⟩ := hpainted.faults (Instr.header (.rDrawText t (.fields o))) (.pixelRange p.1 p.2)
  exact ⟨s'', k, p, hnext, hfirst, (mem_textPixels ..).mp (List.mem_of_getElem? hfirst.1), hfault, hpaint⟩

end Sys2Proof.Machine

/-! PROOFS. 45_blit.md. `Copied` says what a copy has done so far, pixel for pixel from the state before it; one pixel more keeps
it (`Copied.copyPixel`), also when source and target are one surface, and the rows and the faults follow. -/

namespace Sys2Proof.Machine

/-! ### Loops that complete -/

theorem loopFrom_done {body : Nat → State → Drawn} {I : Nat → State → Prop} {n i : Nat}
    (h : ∀ j s, j < i + n → I j s → ∃ s', body j s = .done s' ∧ I (j + 1) s') {s : State} (hs : I i s) :
    ∃ s', loopFrom body n i s = .done s' ∧ I (i + n) s' := by
  induction n generalizing i s with
  | zero => exact ⟨s, rfl, hs⟩
  | succ n ih =>
    obtain ⟨s', hbody, hs'⟩ := h i s (by omega) hs
    obtain ⟨s'', hloop, hs''⟩ := ih (fun j s hj => h j s (by omega)) hs'
    exact ⟨s'', by rw [loopFrom, hbody]; exact hloop, by rwa [Nat.add_right_comm] at hs''⟩

/-- An invariant that every pass keeps holds after the loop. -/
theorem loop_done {body : Nat → State → Drawn} {I : Nat → State → Prop} {n : Nat}
    (h : ∀ j s, j < n → I j s → ∃ s', body j s = .done s' ∧ I (j + 1) s') {s : State} (hs : I 0 s) :
    ∃ s', loop n body s = .done s' ∧ I n s' := by
  simpa [loop] using loopFrom_done (i := 0) (fun j s hj => h j s (by omega)) hs

theorem loopFrom_add (body : Nat → State → Drawn) (m n i : Nat) (s : State) :
    loopFrom body (m + n) i s = (loopFrom body m i s).andThen (loopFrom body n (i + m)) := by
  induction m generalizing i s with
  | zero => simp [loopFrom, Drawn.andThen]
  | succ m ih =>
    rw [Nat.add_right_comm, loopFrom, loopFrom, Drawn.andThen_assoc]
    congr 1
    funext s'
    rw [ih, Nat.add_right_comm, Nat.add_assoc]

/-- A loop whose first `m` passes complete and whose next one raises. -/
theorem loop_raised {body : Nat → State → Drawn} {m n : Nat} {f : Raise} {s s' s'' : State} (hlt : m < n)
    (hdone : loop m body s = .done s') (hraised : body m s' = .raised f s'') : loop n body s = .raised f s'' := by
  obtain ⟨k, rfl⟩ := Nat.exists_eq_add_of_lt hlt
  rw [loop] at hdone
  rw [loop, Nat.add_assoc, loopFrom_add, hdone, Drawn.andThen, Nat.zero_add, loopFrom, hraised, Drawn.andThen]

/-! ### Pixels and their bytes -/

theorem readPixel_of_bytes {c : Config} {t : Nat} {x y : Int} {s s' : State}
    (h : ∀ o, ByteOfPixel c t x y t o → s'.readByte t o = s.readByte t o) :
    s'.readPixel t (pixelOffset c t x y) = s.readPixel t (pixelOffset c t x y) := by
  rw [State.readPixel, State.readPixel, h _ ⟨rfl, .inl rfl⟩, h _ ⟨rfl, .inr rfl⟩]

/-! ### What has been copied -/

/-- Pixel (x, y) is in range for both surfaces. -/
structure OnBoth (c : Config) (src t x y : Nat) : Prop where
  source : inRange c src (x : Int) (y : Int) = true
  target : inRange c t (x : Int) (y : Int) = true

theorem onBoth_of_lt {c : Config} {src t x y : Nat} (hxs : x < c.width src) (hys : y < c.height src) (hxt : x < c.width t)
    (hyt : y < c.height t) : OnBoth c src t x y :=
  ⟨inRange_nat hxs hys, inRange_nat hxt hyt⟩

/-- From `s` to `s'` exactly the pixels in `P` were copied from surface `src` to the same places of surface `t`. -/
structure Copied (src t : Nat) (P : Nat → Nat → Prop) (s s' : State) : Prop where
  only   : OnlyBuf t s s'
  onBoth : ∀ x y, P x y → OnBoth s.cfg src t x y
  pixels : ∀ x y : Nat, P x y →
    s'.readPixel t (pixelOffset s.cfg t x y) = s.readPixel src (pixelOffset s.cfg src x y)
  others : ∀ u b, (∀ x y : Nat, P x y → ¬ ByteOfPixel s.cfg t x y u b) → s'.readByte u b = s.readByte u b

theorem Copied.congr {src t : Nat} {P Q : Nat → Nat → Prop} {s s' : State} (h : Copied src t P s s')
    (e : ∀ x y, P x y ↔ Q x y) : Copied src t Q s s' := by
  have : P = Q := by funext x y; exact propext (e x y)
  exact this ▸ h

theorem Copied.nothing (src t : Nat) (s : State) : Copied src t (fun _ _ => False) s s :=
  ⟨(onlyBuf_closed t).refl s, fun _ _ h => h.elim, fun _ _ h => h.elim, fun _ _ _ => rfl⟩

/-- The source still reads as it did, also where it is the target: what was copied onto itself is unchanged. -/
theorem Copied.readPixel_src {src t : Nat} {P : Nat → Nat → Prop} {s s' : State} (h : Copied src t P s s') {x y : Nat}
    (hxy : OnBoth s.cfg src t x y) :
    s'.readPixel src (pixelOffset s.cfg src x y) = s.readPixel src (pixelOffset s.cfg src x y) := by
  by_cases hst : src = t
  · subst hst
    by_cases hP : P x y
    · exact h.pixels x y hP
    · refine readPixel_of_bytes fun o ho => h.others _ _ fun x' y' hP' ho' => hP ?_
      obtain ⟨hx, hy⟩ := ByteOfPixel.unique hxy.target (h.onBoth x' y' hP').target ho ho'
      rwa [Nat.cast_inj.mp hx, Nat.cast_inj.mp hy]
  · exact readPixel_of_bytes fun o _ => h.others _ _ fun _ _ _ hb => hst hb.1

/-- One pixel more. -/
theorem Copied.copyPixel {src t : Nat} {P : Nat → Nat → Prop} {s s' : State} (h : Copied src t P s s') (hb : s.BufsOk)
    (ht : t < s.cfg.nsurf) {x y : Nat} (hxy : OnBoth s.cfg src t x y) :
    ∃ s'', copyPixel src t x y s' = .done s'' ∧ Copied src t (fun a b => P a b ∨ a = x ∧ b = y) s s'' := by
  have hcfg := h.only.cfg
  have hread : pixRead src x y s' = .ok (s.readPixel src (pixelOffset s.cfg src x y)) := by
    rw [pixRead_of_inRange (by rw [hcfg]; exact hxy.source), hcfg, h.readPixel_src hxy]
  obtain ⟨s'', hdone, hpainted⟩ := (covers_pixWrite (h.only.canon hb) (by rwa [hcfg]) x y
    (s.readPixel src (pixelOffset s.cfg src x y))).completes (by rintro _ _ ⟨rfl, rfl⟩; rw [hcfg]; exact hxy.target)
  obtain ⟨hpaint, hothers⟩ := hpainted.paint
  rw [hcfg] at hpaint hothers
  refine ⟨s'', by rw [Machine.copyPixel, hread]; exact hdone, (onlyBuf_closed t).trans _ _ _ h.only hpainted.only,
    fun a b hab => ?_, fun a b hab => ?_, fun u o hn => ?_⟩
  · rcases hab with hP | ⟨rfl, rfl⟩
    · exact h.onBoth a b hP
    · exact hxy
  · by_cases hnew : a = x ∧ b = y
    · obtain ⟨rfl, rfl⟩ := hnew
      exact hpaint _ _ ⟨rfl, rfl⟩ hxy.target
    · have hP := hab.resolve_right hnew
      rw [← h.pixels a b hP]
      refine readPixel_of_bytes fun o ho => hothers _ _ fun x' y' hxy' hr ho' => hnew ?_
      obtain ⟨ha, hb⟩ := ByteOfPixel.unique (h.onBoth a b hP).target hr ho ho'
      obtain ⟨hx, hy⟩ := hxy'
      omega
  · rw [hothers u o fun x' y' hxy' _ => by obtain ⟨rfl, rfl⟩ := hxy'; exact hn x y (.inr ⟨rfl, rfl⟩),
      h.others u o fun a b hP => hn a b (.inl hP)]

/-! ### Rows -/

/-- The first `y` rows of `w` pixels, and `x` pixels of row `y`. -/
def RowsBefore (w y x : Nat) (a b : Nat) : Prop := a < w ∧ b < y ∨ a < x ∧ b = y

theorem rowsBefore_nothing (w a b : Nat) : False ↔ RowsBefore w 0 0 a b :=
  (iff_false_intro (by unfold RowsBefore; omega)).symm

theorem rowsBefore_next_pixel (w y x a b : Nat) : RowsBefore w y x a b ∨ a = x ∧ b = y ↔ RowsBefore w y (x + 1) a b := by
  unfold RowsBefore; omega

theorem rowsBefore_next_row (w y a b : Nat) : RowsBefore w y w a b ↔ RowsBefore w (y + 1) 0 a b := by
  unfold RowsBefore; omega

theorem rowsBefore_rows (w h a b : Nat) : RowsBefore w h 0 a b ↔ a < w ∧ b < h := by
  unfold RowsBefore; omega

theorem Copied.copyRow {src t w y : Nat} {s s' : State} (h : Copied src t (RowsBefore w y 0) s s') (hb : s.BufsOk)
    (ht : t < s.cfg.nsurf) (hw : ∀ x, x < w → OnBoth s.cfg src t x y) :
    ∃ s'', loop w (fun xx => Machine.copyPixel src t xx y) s' = .done s'' ∧
      Copied src t (RowsBefore w (y + 1) 0) s s'' := by
  obtain ⟨s'', hloop, hcopied⟩ := loop_done (n := w) (I := fun x s' => Copied src t (RowsBefore w y x) s s')
    (body := fun xx => Machine.copyPixel src t xx y) (fun x s₁ hx hc => by
      obtain ⟨s₂, hdone, hc'⟩ := hc.copyPixel hb ht (hw x hx)
      exact ⟨s₂, hdone, hc'.congr (rowsBefore_next_pixel w y x)⟩) h
  exact ⟨s'', hloop, hcopied.congr (rowsBefore_next_row w y)⟩

theorem copyRows {src t w h : Nat} {s : State} (hb : s.BufsOk) (ht : t < s.cfg.nsurf)
    (hin : ∀ x y, x < w → y < h → OnBoth s.cfg src t x y) :
    ∃ s', copyRect src t w h s = .done s' ∧ Copied src t (fun x y => x < w ∧ y < h) s s' := by
  obtain ⟨s', hloop, hcopied⟩ := loop_done (n := h) (I := fun y s' => Copied src t (RowsBefore w y 0) s s')
    (body := fun yy => loop w fun xx => Machine.copyPixel src t xx yy)
    (fun y s₁ hy hc => hc.copyRow hb ht fun x hx => hin x y hx hy)
    ((Copied.nothing src t s).congr (rowsBefore_nothing _))
  exact ⟨s', hloop, hcopied.congr (rowsBefore_rows w h)⟩

/-! ### Where a copy faults -/

/-- A pixel of the source that the target has not. -/
theorem Copied.copyPixel_raised {src t : Nat} {P : Nat → Nat → Prop} {s s' : State} (h : Copied src t P s s') {x y : Nat}
    (hx : x < s.cfg.width src) (hy : y < s.cfg.height src) (hout : s.cfg.width t ≤ x ∨ s.cfg.height t ≤ y) :
    Machine.copyPixel src t x y s' = .raised (.pixelRange x y) s' := by
  have hcfg := h.only.cfg
  rw [Machine.copyPixel, pixRead_of_inRange (by rw [hcfg]; exact inRange_nat hx hy)]
  refine pixWrite_of_not_inRange _ ?_
  rw [hcfg, inRange_eq_false_iff]
  omega

/-- Onto a narrower target: the part of row 0 that fits, then the pixel beside it. -/
theorem copyRect_narrower {src t : Nat} {s : State} (hb : s.BufsOk) (ht : t < s.cfg.nsurf)
    (hw : s.cfg.width t < s.cfg.width src) (hhs : 0 < s.cfg.height src) (hht : 0 < s.cfg.height t) :
    ∃ s', copyRect src t (s.cfg.width src) (s.cfg.height src) s = .raised (.pixelRange (s.cfg.width t) 0) s' ∧
      Copied src t (fun x y => x < s.cfg.width t ∧ y < 1) s s' := by
  obtain ⟨s', hrow, hcopied⟩ := Copied.copyRow (w := s.cfg.width t) (y := 0)
    ((Copied.nothing src t s).congr (rowsBefore_nothing _)) hb ht
    fun x hx => onBoth_of_lt (by omega) hhs hx hht
  have hraised := loop_raised hw hrow (hcopied.copyPixel_raised (y := 0) hw hhs (.inl le_rfl))
  exact ⟨s', loop_raised (m := 0) hhs rfl hraised, hcopied.congr (rowsBefore_rows _ 1)⟩

/-- Onto a target that is lower and not narrower: the rows that fit, then the first pixel below them. -/
theorem copyRect_lower {src t : Nat} {s : State} (hb : s.BufsOk) (ht : t < s.cfg.nsurf) (hws : 0 < s.cfg.width src)
    (hw : s.cfg.width src ≤ s.cfg.width t) (hh : s.cfg.height t < s.cfg.height src) :
    ∃ s', copyRect src t (s.cfg.width src) (s.cfg.height src) s = .raised (.pixelRange 0 (s.cfg.height t)) s' ∧
      Copied src t (fun x y => x < s.cfg.width src ∧ y < s.cfg.height t) s s' := by
  obtain ⟨s', hrows, hcopied⟩ := copyRows (w := s.cfg.width src) (h := s.cfg.height t) hb ht
    fun x y hx hy => onBoth_of_lt hx (by omega) (by omega) hy
  have hraised : loop (s.cfg.width src) (fun xx => Machine.copyPixel src t xx (s.cfg.height t)) s' =
      .raised (.pixelRange 0 (s.cfg.height t)) s' :=
    loop_raised (m := 0) hws rfl (hcopied.copyPixel_raised (x := 0) hws hh (.inr le_rfl))
  exact ⟨s', loop_raised hh hrows hraised, hcopied⟩

/-! ### `R.STRETCHIMAGE` -/

/-- An accepted blit is the copy of the whole source (R235, R237). -/
theorem exec_rStretchImage_accepted {s : State} {t : Byte} {o : BlitOps} (hs : s.Ready t) (hsrc : o.src.toNat < s.cfg.nsurf)
    (haccept : ¬ UnsupportedIn s.cfg (.rStretchImage t (.fields o))) :
    exec (.rStretchImage t (.fields o)) s = finish (Instr.header (.rStretchImage t (.fields o)))
      (copyRect o.src.toNat t.toNat (s.cfg.width o.src.toNat) (s.cfg.height o.src.toNat) s) := by
  have haccepted := (blitAccepted_iff_not_unsupportedIn s.cfg t o).mpr haccept
  simp only [UnsupportedIn, not_or, not_not] at haccept
  obtain ⟨-, -, hws, hhs, hwd, hhd, -⟩ := haccept
  have hw : (s32 o.widthDst).toNat = s.cfg.width o.src.toNat := by unfold s32; omega
  have hh : (s32 o.heightDst).toNat = s.cfg.height o.src.toNat := by unfold s32; omega
  simp only [exec, execRStretchImage, withOperands_ready hs, u32, if_neg (Nat.not_le.mpr hsrc), haccepted, if_true, hw, hh]
  rfl

/-- Settles O35: every pixel of the source is on the target too, so the copy completes (`copyRows`). -/
theorem blitCopiesWholeSource : Obligations.BlitCopiesWholeSource := by
  intro s t o hs hb hsrc haccept hw hh
  obtain ⟨s', hdone, hcopied⟩ := copyRows (src := o.src.toNat) (w := s.cfg.width o.src.toNat)
    (h := s.cfg.height o.src.toNat) hb hs.2 fun x y hx hy => onBoth_of_lt hx hy (by omega) (by omega)
  obtain ⟨hresp, hsame⟩ := hcopied.only.completes
  rw [exec_rStretchImage_accepted hs hsrc haccept, hdone]
  exact ⟨s'.respond .ok 0, rfl, hresp, hsame, fun x y hx hy => hcopied.pixels x y ⟨hx, hy⟩,
    fun u b hn => hcopied.others u b fun x y hxy => hn x y hxy.1 hxy.2⟩

theorem bytes_of_append_eq {a b a' b' : Byte} (h : a ++ b = a' ++ b') : a = a' ∧ b = b' := by
  have hhi := congrArg (BitVec.extractLsb' 8 8) h
  have hlo := congrArg (BitVec.extractLsb' 0 8) h
  simp only [BitVec.extractLsb'_append_eq_left, BitVec.extractLsb'_append_eq_right] at hhi hlo
  exact ⟨hhi, hlo⟩

/-- Every byte of a buffer is one of the two bytes of a pixel in range (20_memory.md R51). -/
theorem exists_pixel_of_lt_bufLen {c : Config} {t b : Nat} (h : b < c.bufLen t) :
    ∃ x y : Nat, x < c.width t ∧ y < c.height t ∧ (b = (y * c.width t + x) * 2 ∨ b = (y * c.width t + x) * 2 + 1) := by
  have hpos : 0 < c.width t := Nat.pos_of_ne_zero fun h0 => by simp [Config.bufLen, h0] at h
  have hdiv := Nat.div_add_mod' (b / 2) (c.width t)
  refine ⟨b / 2 % c.width t, b / 2 / c.width t, Nat.mod_lt _ hpos, Nat.div_lt_of_lt_mul ?_, by omega⟩
  unfold Config.bufLen at h
  omega

/-- Surfaces of one size whose pixels are equal have equal bytes. -/
theorem readByte_eq_of_readPixel_eq {c : Config} {t u : Nat} {s : State} (hw : c.width u = c.width t)
    (h : ∀ x y : Nat, x < c.width t → y < c.height t →
      s.readPixel t (pixelOffset c t x y) = s.readPixel u (pixelOffset c u x y)) {b : Nat} (hb : b < c.bufLen t) :
    s.readByte t b = s.readByte u b := by
  obtain ⟨x, y, hx, hy, hbyte⟩ := exists_pixel_of_lt_bufLen hb
  have hpixel := h x y hx hy
  rw [pixelOffset_nat, pixelOffset_nat, hw] at hpixel
  obtain ⟨hhi, hlo⟩ := bytes_of_append_eq hpixel
  rcases hbyte with rfl | rfl
  · exact hhi
  · exact hlo

/-- Settles O36: for two surfaces the source is unchanged, so it has the pixels that were copied from it. -/
theorem sameSizeBlitMakesBuffersEqual : Obligations.SameSizeBlitMakesBuffersEqual := by
  intro s t o hs hb hsrc haccept hw hh
  obtain ⟨s', hnext, -, ⟨hcfg, -⟩, hpixels, hothers⟩ := blitCopiesWholeSource s t o hs hb hsrc haccept hw.le hh.le
  refine ⟨s', hnext, fun b => ?_⟩
  by_cases hst : o.src.toNat = t.toNat
  · rw [hst]
  · have hlen : s.cfg.bufLen o.src.toNat = s.cfg.bufLen t.toNat := by rw [Config.bufLen, Config.bufLen, hw, hh]
    have hbytes (hlt : b < s.cfg.bufLen t.toNat) : s'.readByte t.toNat b = s'.readByte o.src.toNat b := by
      refine readByte_eq_of_readPixel_eq hw (fun x y hx hy => ?_) hlt
      rw [hpixels x y (hw ▸ hx) (hh ▸ hy)]
      exact (readPixel_of_bytes fun o' _ => hothers _ _ fun _ _ _ _ hb => hst hb.1).symm
    by_cases hlt : b < s.cfg.bufLen t.toNat
    · rw [xferRead_of_lt s' (hcfg ▸ hs.2) (hcfg ▸ hlt), hbytes hlt,
        xferRead_of_lt s' (hcfg ▸ hsrc) (by rw [hcfg, hlen]; exact hlt)]
    · have hpast {u : Nat} (h : s.cfg.bufLen u = s.cfg.bufLen t.toNat) : xferRead s' u b = none :=
        if_neg fun hin => hlt (by rw [← h, ← hcfg]; exact hin.2)
      rw [hpast rfl, hpast hlen]

/-- The end of a blit that raised, as the statements name it. -/
theorem Copied.faults {src t w h : Nat} {s s' : State} (hcopied : Copied src t (fun x y => x < w ∧ y < h) s s') (header : Word)
    (px py : Nat) :
    ∃ s'', finish header (.raised (.pixelRange px py) s') = .next s'' ∧
      s.FaultedWith s'' 5 (BitVec.ofNat 32 px) (BitVec.ofNat 32 py) header ∧
      (∀ x y : Nat, x < w → y < h →
        s''.readPixel t (pixelOffset s.cfg t x y) = s.readPixel src (pixelOffset s.cfg src x y)) ∧
      ∀ u b, (∀ x y : Nat, x < w → y < h → ¬ ByteOfPixel s.cfg t x y u b) → s''.readByte u b = s.readByte u b := by
  have hfault := hcopied.only.faultedWith header (.pixelRange px py)
  rw [Raise.info0, Raise.info1, low32, low32, BitVec.ofInt_natCast, BitVec.ofInt_natCast] at hfault
  exact ⟨_, rfl, hfault, fun x y hx hy => hcopied.pixels x y ⟨hx, hy⟩,
    fun u b hn => hcopied.others u b fun x y hxy => hn x y hxy.1 hxy.2⟩

/-- Settles O37: `copyRect_narrower` and `copyRect_lower`, with R10's bounds for a source that has a pixel. -/
theorem blitOntoSmallerTargetFaults : Obligations.BlitOntoSmallerTargetFaults := by
  intro s t o w h px py hs hb hwf hsrc haccept hcase
  obtain ⟨hws, hhs, -⟩ := size_bounds_of_config_wf hwf hsrc
  obtain ⟨-, hht, -⟩ := size_bounds_of_config_wf hwf hs.2
  rw [exec_rStretchImage_accepted hs hsrc haccept]
  rcases hcase with ⟨hlt, rfl, rfl, rfl, rfl⟩ | ⟨hle, hlt, rfl, rfl, rfl, rfl⟩
  · obtain ⟨s', hraised, hcopied⟩ := copyRect_narrower hb hs.2 hlt hhs hht
    rw [hraised]
    exact hcopied.faults _ _ 0
  · obtain ⟨s', hraised, hcopied⟩ := copyRect_lower hb hs.2 hws hle hlt
    rw [hraised]
    exact hcopied.faults _ 0 _

end Sys2Proof.Machine
